-- ==== Sys2Proof/Word.lean ====
section
/-! DEFINITION. The number types of the block (rule R9: unsigned fixed-width numbers whose `+` and `-` wrap). -/

namespace Sys2Proof

/-- `u8`, one byte of BUF. -/
abbrev Byte := BitVec 8

/-- `u16`: LEN, CRC and RXCRC. -/
abbrev Half := BitVec 16

/-- `u32`: a register as the host sees it, a key word, half a cipher block, a command word. -/
abbrev Word := BitVec 32

/-- A byte offset in the window, 0x000..0x1FF (rule R35). -/
abbrev Offset := BitVec 9

end Sys2Proof
end

