-- ==== Sys2Proof/Syntax.lean ====
section
/-! DEFINITION. What the host and the platform can say to the block: command words as instructions, host accesses, reset; and
what the block answers. Types only. -/

namespace Sys2Proof

/-- Role (R29): Controller is 0 and Vehicle 1 wherever a role appears (CTRL.ROLE, KSEL, `keyOf`). -/
inductive Role where
  | controller
  | vehicle
deriving DecidableEq, Repr

/-- The packet type PT (R88): 0 is VehicleTelemetryPacket, 1 is VehicleCommandPacket. -/
inductive PacketType where
  | telemetry
  | command
deriving DecidableEq, Repr

/-- The fields of a command word (R50): OP = w[3:0], KSEL = w[4], PT = w[5], Z = w[31:6]. -/
structure CommandWord where
  op : BitVec 4
  ksel : BitVec 1
  pt : BitVec 1
  z : BitVec 26
deriving DecidableEq, Repr

/-- The eight commands (R54), one constructor per row of spec/opcode_table.json. -/
inductive Instr where
  | clr
  | crc
  | encb (ksel : Role)
  | decb (ksel : Role)
  | encbuf (ksel : Role)
  | decbuf (ksel : Role)
  | send (pt : PacketType)
  | recv (pt : PacketType)
deriving DecidableEq, Repr

/-- Why a word is Illegal (R56): a reserved opcode, or a nonzero bit where its format has 0. -/
inductive Illegal where
  | reservedOpcode
  | mustBeZero
deriving DecidableEq, Repr

/-- The result of decoding a word (R55): `Command | Illegal`. -/
inductive Decoded where
  | command (i : Instr)
  | illegal (why : Illegal)
deriving DecidableEq, Repr

/-- The width of a host access (R59). -/
inductive Width where
  | w8
  | w16
  | w32
deriving DecidableEq, Repr

/-- A host access `(kind, width, off, value)` (R59), the value of a write being of its width; in the notation of R57,
`rd8`, `rd16`, `rd32`, `wr8`, `wr16`, `wr32`. -/
inductive Access where
  | read (w : Width) (off : Offset)
  | write8 (off : Offset) (v : Byte)
  | write16 (off : Offset) (v : Half)
  | write32 (off : Offset) (v : Word)
deriving DecidableEq, Repr

/-- What arrives at the block: a host access (R59), or reset (R114). -/
inductive Input where
  | access (a : Access)
  | reset
deriving DecidableEq, Repr

/-- The outcome of a host access (R59): the value read, done, or BusError. -/
inductive Response where
  | value8 (v : Byte)
  | value16 (v : Half)
  | value32 (v : Word)
  | done
  | busError
deriving DecidableEq, Repr

/-- The registers of the window (R38); `keyC i` and `keyV i` are KEYC[i] and KEYV[i]. -/
inductive Reg where
  | ctrl
  | status
  | cmd
  | len
  | crc
  | rxcrc
  | v0
  | v1
  | keyC (i : BitVec 2)
  | keyV (i : BitVec 2)
deriving DecidableEq, Repr

/-- What an admitted access reaches: a register, or BUF from index `i` on (R60). -/
inductive Target where
  | reg (r : Reg)
  | buf (i : Nat)
deriving DecidableEq, Repr

/-- The type of a packet field (R89, R90). -/
inductive FieldType where
  | f32
  | u32
  | u16
  | u8
  | i8
  | reserved (n : Nat)
deriving DecidableEq, Repr

/-- One row of a packet layout (R89, R90). -/
structure Field where
  offset : Nat
  name : String
  type : FieldType
deriving DecidableEq, Repr

end Sys2Proof
end

