-- ==== Sys2Proof/WellFormed.lean ====
section
/-! DEFINITION. Well-formedness checks. A value of `Instr` or `Access` is well formed by its type; what can be ill formed is a
command word's fields (R51) and a packet layout (R88..R91). -/

namespace Sys2Proof

/-- The fields of a legal command (R51): OP below 8, Z zero, KSEL zero outside format K, PT zero outside format P. -/
def CommandWord.wf (c : CommandWord) : Bool :=
  c.z == 0#26 && c.op.toNat < 8 && (c.ksel == 0#1 || (2 ≤ c.op.toNat && c.op.toNat ≤ 5)) && (c.pt == 0#1 || 6 ≤ c.op.toNat)

/-- How many bytes a field takes (R89, R90). -/
def FieldType.bytes : FieldType → Nat
  | .f32 => 4
  | .u32 => 4
  | .u16 => 2
  | .u8 => 1
  | .i8 => 1
  | .reserved n => n

/-- "packed with no gaps" (R89): each field begins where the one before it ends. -/
def packedFrom : Nat → List Field → Bool
  | _, [] => true
  | at_, f :: fs => f.offset == at_ && packedFrom (at_ + f.type.bytes) fs

/-- The bytes of a layout. -/
def layoutBytes (fs : List Field) : Nat :=
  (fs.map fun f => f.type.bytes).sum

/-- A packet layout is packed from offset 0, its size is "a positive multiple of 8" (R88), and its last field is the u16
checksum (R91). -/
def layoutWf (fs : List Field) : Bool :=
  packedFrom 0 fs && layoutBytes fs != 0 && layoutBytes fs % 8 == 0 && (fs.getLast?.map fun f => f.type) == some .u16

end Sys2Proof
end

