-- ==== Sys2Proof/Decode.lean ====
section
/-! DEFINITION. The decoder (R50..R56), total on every word; the encoder; the opcode map (R54) as a table. -/

namespace Sys2Proof

/-- The fields of a word (R50). -/
def CommandWord.ofWord (w : Word) : CommandWord where
  op := w.extractLsb' 0 4
  ksel := w.extractLsb' 4 1
  pt := w.extractLsb' 5 1
  z := w.extractLsb' 6 26

/-- The role a bit stands for (R29): 0 is Controller, 1 is Vehicle. -/
def Role.ofBit (b : BitVec 1) : Role :=
  if b = 0#1 then .controller else .vehicle

/-- The bit of a role (R29). -/
def Role.bit : Role → BitVec 1
  | .controller => 0#1
  | .vehicle => 1#1

/-- The packet type a bit stands for (R88): 0 is telemetry, 1 is command. -/
def PacketType.ofBit (b : BitVec 1) : PacketType :=
  if b = 0#1 then .telemetry else .command

/-- The bit of a packet type (R88). -/
def PacketType.bit : PacketType → BitVec 1
  | .telemetry => 0#1
  | .command => 1#1

/-- Format N (R51): every bit of 31..4 is 0. -/
def decodeN (c : CommandWord) (i : Instr) : Decoded :=
  if c.ksel = 0#1 ∧ c.pt = 0#1 ∧ c.z = 0#26 then .command i else .illegal .mustBeZero

/-- Format K (R51): every bit of 31..5 is 0; KSEL selects the key. -/
def decodeK (c : CommandWord) (i : Role → Instr) : Decoded :=
  if c.pt = 0#1 ∧ c.z = 0#26 then .command (i (Role.ofBit c.ksel)) else .illegal .mustBeZero

/-- Format P (R51): every bit of 31..6 and bit 4 are 0; PT selects the packet type. -/
def decodeP (c : CommandWord) (i : PacketType → Instr) : Decoded :=
  if c.ksel = 0#1 ∧ c.z = 0#26 then .command (i (PacketType.ofBit c.pt)) else .illegal .mustBeZero

/-- Decode the fields by OP (R52, R54, R55). -/
def CommandWord.decode (c : CommandWord) : Decoded :=
  match c.op.toNat with
  | 0x0 => decodeN c .clr
  | 0x1 => decodeN c .crc
  | 0x2 => decodeK c .encb
  | 0x3 => decodeK c .decb
  | 0x4 => decodeK c .encbuf
  | 0x5 => decodeK c .decbuf
  | 0x6 => decodeP c .send
  | 0x7 => decodeP c .recv
  | _ => .illegal .reservedOpcode

/-- `decode(w)` (R55). -/
def decode (w : Word) : Decoded :=
  (CommandWord.ofWord w).decode

/-- The word the host's table gives as `nbits` bits numbered from 0, its bits above `nbits` being 0 (entry 11). -/
def tableWord (nbits w : Nat) : Word :=
  BitVec.ofNat 32 (w % 2 ^ nbits)

/-- The instruction the decoder reads from a word of the opcode table. -/
def decodeTableWord (nbits w : Nat) : Option Instr :=
  match decode (tableWord nbits w) with
  | .command i => some i
  | .illegal _ => none

/-- The fields of an instruction, from the formats of R51 and the opcodes of R54. -/
def Instr.fields : Instr → CommandWord
  | .clr => ⟨0x0#4, 0#1, 0#1, 0#26⟩
  | .crc => ⟨0x1#4, 0#1, 0#1, 0#26⟩
  | .encb r => ⟨0x2#4, r.bit, 0#1, 0#26⟩
  | .decb r => ⟨0x3#4, r.bit, 0#1, 0#26⟩
  | .encbuf r => ⟨0x4#4, r.bit, 0#1, 0#26⟩
  | .decbuf r => ⟨0x5#4, r.bit, 0#1, 0#26⟩
  | .send p => ⟨0x6#4, 0#1, p.bit, 0#26⟩
  | .recv p => ⟨0x7#4, 0#1, p.bit, 0#26⟩

/-- A word from its fields (R50): `Z ++ PT ++ KSEL ++ OP`. -/
def CommandWord.toWord (c : CommandWord) : Word :=
  c.z ++ c.pt ++ c.ksel ++ c.op

/-- The word of an instruction (R51, R54). -/
def encode (i : Instr) : Word :=
  i.fields.toWord

/-- One row of the opcode map (R54). -/
structure OpcodeRow where
  mnemonic : String
  matchWord : Word
  mask : Word
deriving DecidableEq, Repr

/-- The opcode map (R54). -/
def opcodeMap : List OpcodeRow :=
  [⟨"CLR", 0x00000000#32, 0xFFFFFFFF#32⟩, ⟨"CRC", 0x00000001#32, 0xFFFFFFFF#32⟩,
   ⟨"ENCB", 0x00000002#32, 0xFFFFFFEF#32⟩, ⟨"DECB", 0x00000003#32, 0xFFFFFFEF#32⟩,
   ⟨"ENCBUF", 0x00000004#32, 0xFFFFFFEF#32⟩, ⟨"DECBUF", 0x00000005#32, 0xFFFFFFEF#32⟩,
   ⟨"SEND", 0x00000006#32, 0xFFFFFFDF#32⟩, ⟨"RECV", 0x00000007#32, 0xFFFFFFDF#32⟩]

/-- "the word `w` is the command when `w & mask = match`" (R54). -/
def OpcodeRow.hits (r : OpcodeRow) (w : Word) : Bool :=
  w &&& r.mask == r.matchWord

/-- The mnemonic of an instruction (R54). -/
def Instr.mnemonic : Instr → String
  | .clr => "CLR"
  | .crc => "CRC"
  | .encb _ => "ENCB"
  | .decb _ => "DECB"
  | .encbuf _ => "ENCBUF"
  | .decbuf _ => "DECBUF"
  | .send _ => "SEND"
  | .recv _ => "RECV"

end Sys2Proof
end

