-- ==== Sys2Proof/Config.lean ====
section
/-! DEFINITION. What is fixed for the block (the parameters of rule R7) and the values the spec leaves open.

`LEN_BITS = 16`, `NUM_ROLES = 2` and `KEY_WORDS = 4` are the types of `State.len`, `Role` and `Key`; the packet lengths
`PLEN_TLM` and `PLEN_CMD` are `Machine.plen`. -/

namespace Sys2Proof.Config

/-- `WINDOW_BYTES` (R7). -/
def windowBytes : Nat := 0x200

/-- `BUF_SIZE` (R7): a multiple of 8 that holds a packet. -/
def bufSize : Nat := 256

/-- `ROUNDS` (R7, R75). -/
def rounds : Nat := 32

/-- `DELTA` (R7, R75). -/
def delta : Word := 0x9E3779B9#32

/-- `POLY` (R7, R69). -/
def poly : Half := 0x1021#16

/-- `CRC_INIT` (R7, R69). -/
def crcInit : Half := 0xFFFF#16

/-- Which window of the bus the block has: open (R7, R36; entry 6). -/
opaque windowNumber : Nat

/-- `BASE` (R7, R36): a multiple of `WINDOW_BYTES`, and nothing more is known of it. -/
def base : Nat := windowNumber * windowBytes

/-- The free value of BUF after reset (R34, R114, I7; entry 3): byte `i` as drawn by reset number `n`. -/
opaque resetByte : (n i : Nat) → Byte

end Sys2Proof.Config
end

