-- ==== Sys2Proof/Machine/State.lean ====
section
/-! DEFINITION. The state (R15), what can end a step, and the state after reset (R34). -/

namespace Sys2Proof.Machine

/-- STATUS.ERR (R19, R101): the codes that are ever produced (entry 10). -/
inductive ErrCode where
  | none
  | frameLengthMismatch
  | integrityCheckFailed
  | preconditionViolation
  | illegalCommand
deriving DecidableEq, Repr

/-- A Link Key (R30): four words, word `i` being the cipher's `k_i` (R25). -/
structure Key where
  k0 : Word
  k1 : Word
  k2 : Word
  k3 : Word
deriving DecidableEq, Repr

/-- A cipher block as the word pair `(v0, v1)` (R77). -/
structure Block where
  v0 : Word
  v1 : Word
deriving DecidableEq, Repr

/-- BUF (R26): the bytes written since reset, as pairs (index, byte) with the indexes rising (entry 4). -/
abbrev Memory := List Host.Cell

/-- The machine. The first fields, to `buf`, are the architectural state of R15; the last three are the model's own. -/
structure State where
  /-- CTRL.ROLE (R18). -/
  role : Role
  /-- CTRL.KLOCK (R18). -/
  klock : Bool
  /-- STATUS.ERR (R19). -/
  err : ErrCode
  /-- STATUS.VALID (R19). -/
  valid : Bool
  /-- LEN (R21). -/
  len : Half
  /-- CRC (R22). -/
  crc : Half
  /-- RXCRC (R23). -/
  rxcrc : Half
  /-- V0 (R24). -/
  v0 : Word
  /-- V1 (R24). -/
  v1 : Word
  /-- KEYC[0..3] (R25). -/
  keyC : Key
  /-- KEYV[0..3] (R25). -/
  keyV : Key
  /-- BUF (R26). -/
  buf : Memory
  /-- The number of resets so far, to which the free value of BUF is applied (entry 3). -/
  resets : Nat
  /-- The inputs still to be performed, in the order received (R46; entry 1). -/
  pending : List Input
  /-- The answers given, newest first (R59, R126; entry 2). -/
  responses : List Response
deriving DecidableEq, Repr

/-- What stops the machine: nothing. The block has no trap (R12, R109) and every input has an outcome that is a next state:
an error is a code in STATUS (R101), and BusError is an answer to the host (R61; entry 7). -/
inductive Fault where
deriving DecidableEq, Repr

/-- Why an instruction is refused. -/
inductive Refusal where
  /-- Raised by an arm of `exec` whose instruction has no meaning yet. No arm raises it in this model. Safe: the machine stops
  where the hardware goes on. -/
  | notModelled (mnemonic : String)
deriving DecidableEq, Repr

/-- The key of zero words (R34). -/
def Key.zero : Key := ⟨0#32, 0#32, 0#32, 0#32⟩

/-- The state after reset (R34, R114, R116): every register and key word 0, KLOCK and STATUS 0, no byte of BUF written. The
values of the model's own fields are its choice (entries 1, 2 and 3). -/
def State.reset : State where
  role := .controller
  klock := false
  err := .none
  valid := false
  len := 0#16
  crc := 0#16
  rxcrc := 0#16
  v0 := 0#32
  v1 := 0#32
  keyC := Key.zero
  keyV := Key.zero
  buf := []
  resets := 0
  pending := []
  responses := []

end Sys2Proof.Machine
end

