-- ==== Sys2Proof/Machine/Ops.lean ====
section
/-! DEFINITION. The shared operations: BUF and its primitives (R11), the named updates of State, the end of a command (R65),
raising an error (R12), and reset (R114).

The block has no exception entry and no return from one (R109, R110): `State.raise` is all that an error does. -/

namespace Sys2Proof.Machine

/-- The canonical form from index `lo` on: indexes strictly rising and inside BUF (entry 4). -/
def Memory.wfFrom : Nat → Memory → Bool
  | _, [] => true
  | lo, (i, _) :: m => lo ≤ i && i < Config.bufSize && Memory.wfFrom (i + 1) m

/-- The canonical form of BUF (entry 4). -/
def Memory.wf (m : Memory) : Bool :=
  Memory.wfFrom 0 m

/-- The byte written last to index `i` since reset, if any. -/
def Memory.find : Memory → Nat → Option Byte
  | [], _ => none
  | (j, u) :: m, i => if i = j then some u else Memory.find m i

/-- Put a byte at index `i`, keeping the indexes rising. -/
def Memory.insert : Memory → Nat → Byte → Memory
  | [], i, v => [(i, v)]
  | (j, u) :: m, i, v =>
    if i < j then (i, v) :: (j, u) :: m
    else if i = j then (i, v) :: m
    else (j, u) :: Memory.insert m i v

/-- `BUF[i] <- v` (R10). Nothing is written outside BUF, where no rule writes (R11; entry 15). -/
def Memory.put (m : Memory) (i : Nat) (v : Byte) : Memory :=
  if i < Config.bufSize then Memory.insert m i v else m

/-- `BUF[i]` (R10), after reset number `d`: the byte written, or else the free value drawn at that reset (R34; entry 3). -/
def Memory.byte (d : Nat) (m : Memory) (i : Nat) : Byte :=
  (Memory.find m i).getD (Config.resetByte d i)

/-- `MemRead(off, 2)` (R11), little-endian (R40). -/
def Memory.read16 (d : Nat) (m : Memory) (off : Nat) : Half :=
  Memory.byte d m (off + 1) ++ Memory.byte d m off

/-- `MemRead(off, 4)` (R11), little-endian (R40). -/
def Memory.read32 (d : Nat) (m : Memory) (off : Nat) : Word :=
  Memory.byte d m (off + 3) ++ Memory.byte d m (off + 2) ++ Memory.byte d m (off + 1) ++ Memory.byte d m off

/-- `MemWrite(off, 2, v)` (R11). -/
def Memory.write16 (m : Memory) (off : Nat) (v : Half) : Memory :=
  Memory.put (Memory.put m off (v.extractLsb' 0 8)) (off + 1) (v.extractLsb' 8 8)

/-- `MemWrite(off, 4, v)` (R11). -/
def Memory.write32 (m : Memory) (off : Nat) (v : Word) : Memory :=
  Memory.put (Memory.put (Memory.put (Memory.put m off (v.extractLsb' 0 8)) (off + 1) (v.extractLsb' 8 8))
    (off + 2) (v.extractLsb' 16 8)) (off + 3) (v.extractLsb' 24 8)

/-- `BUF[a..a+n)` as a byte sequence, lowest index first (R8, R11). -/
def Memory.bytes (d : Nat) (m : Memory) (a n : Nat) : List Byte :=
  (List.range n).map fun j => Memory.byte d m (a + j)

/-- `for i in [a, a+n): BUF[i] <- 0x00` (R96). -/
def Memory.zero (m : Memory) (a n : Nat) : Memory :=
  (List.range n).foldl (fun m j => Memory.put m (a + j) 0#8) m

/-- `BUF[i]` in a state. -/
def State.byte (s : State) (i : Nat) : Byte :=
  Memory.byte s.resets s.buf i

/-- `BUF` gets new contents. -/
def State.setBuf (s : State) (m : Memory) : State := { s with buf := m }

/-- `CRC <- c`. -/
def State.setCrc (s : State) (c : Half) : State := { s with crc := c }

/-- `RXCRC <- c`. -/
def State.setRxcrc (s : State) (c : Half) : State := { s with rxcrc := c }

/-- `LEN <- n`. -/
def State.setLen (s : State) (n : Half) : State := { s with len := n }

/-- `(V0, V1) <- b`. -/
def State.setV (s : State) (b : Block) : State := { s with v0 := b.v0, v1 := b.v1 }

/-- The one write of STATUS at the end of a command (R31, R108). -/
def State.setStatus (s : State) (e : ErrCode) (v : Bool) : State := { s with err := e, valid := v }

/-- A command's pseudocode completes without `raise` (R65): ERR 0 and VALID 0. -/
def State.complete (s : State) : State := s.setStatus .none false

/-- RECV's successful end (R65, R97): ERR 0 and VALID 1. -/
def State.completeValid (s : State) : State := s.setStatus .none true

/-- `raise E` (R12, R108): the writes made before stand, ERR is E's code, and VALID is 0. -/
def State.raise (s : State) (e : ErrCode) : State := s.setStatus e false

/-- The answer to a host access (R59). -/
def State.respond (s : State) (r : Response) : State := { s with responses := r :: s.responses }

/-- The inputs still to be performed. -/
def State.setPending (s : State) (p : List Input) : State := { s with pending := p }

/-- The reset input (R114): every state of R15 takes its reset value, BUF a new draw. Inputs still pending and answers already
given stay (entry 5). -/
def State.afterReset (s : State) : State :=
  { State.reset with resets := s.resets + 1, pending := s.pending, responses := s.responses }

end Sys2Proof.Machine
end

