-- ==== Sys2Proof/Machine/Operands.lean ====
section
/-! DEFINITION. Operands: keys by role (R13), and the window: admission (R60), which register an offset names (R38), bus
addresses (R35, R36). -/

namespace Sys2Proof.Machine

/-- Key word `k[i]` (R77). -/
def Key.word (k : Key) (i : BitVec 2) : Word :=
  if i = 0#2 then k.k0 else if i = 1#2 then k.k1 else if i = 2#2 then k.k2 else k.k3

/-- Key word `i` gets the value `w` (R25). -/
def Key.setWord (k : Key) (i : BitVec 2) (w : Word) : Key :=
  if i = 0#2 then { k with k0 := w } else if i = 1#2 then { k with k1 := w }
  else if i = 2#2 then { k with k2 := w } else { k with k3 := w }

/-- `keyOf(r)` (R13). -/
def State.keyOf (s : State) : Role → Key
  | .controller => s.keyC
  | .vehicle => s.keyV

/-- `peer(r) = 1 - r` (R13). -/
def peer : Role → Role
  | .controller => .vehicle
  | .vehicle => .controller

/-- `outKey` (R94): SEND encrypts with the receiver's key. -/
def State.outKey (s : State) : Key := s.keyOf (peer s.role)

/-- `inKey` (R94): RECV decrypts with this endpoint's own key. -/
def State.inKey (s : State) : Key := s.keyOf s.role

/-- The block in V0 and V1 (R24). -/
def State.vBlock (s : State) : Block := ⟨s.v0, s.v1⟩

/-- The bytes of an access (R59). -/
def bytesOf : Width → Nat
  | .w8 => 1
  | .w16 => 2
  | .w32 => 4

/-- Admission (R60): a register offset by an aligned word, or BUF by any naturally aligned width. -/
def admitted (w : Width) (off : Offset) : Bool :=
  (off.toNat < 0x040 && w == .w32 && off.toNat % 4 == 0) || (0x100 ≤ off.toNat && off.toNat % bytesOf w == 0)

/-- The register at word `n` of the window (R38): offset `4 * n`. -/
def regAt (n : Nat) : Reg :=
  match n with
  | 0 => .ctrl
  | 1 => .status
  | 2 => .cmd
  | 3 => .len
  | 4 => .crc
  | 5 => .rxcrc
  | 6 => .v0
  | 7 => .v1
  | k + 8 => if k < 4 then .keyC (BitVec.ofNat 2 k) else .keyV (BitVec.ofNat 2 k)

/-- What an access reaches (R38, R60); nothing if it is refused. -/
def target (w : Width) (off : Offset) : Option Target :=
  if admitted w off then
    some (if off.toNat < 0x040 then .reg (regAt (off.toNat / 4)) else .buf (off.toNat - 0x100))
  else none

/-- The bus address of a window offset (R36, R59): `BASE + off`. -/
def busAddress (off : Offset) : Nat :=
  Config.base + off.toNat

/-- The window offset of a bus address, if it is in the block's window (R35). -/
def windowOffset (a : Nat) : Option Offset :=
  if Config.base ≤ a ∧ a < Config.base + Config.windowBytes then some (BitVec.ofNat 9 (a - Config.base)) else none

end Sys2Proof.Machine
end

