-- ==== Sys2Proof/Machine/Flags.lean ====
section
/-! DEFINITION. The flags (R31: STATUS.ERR and STATUS.VALID) and the words in which the host reads CTRL and STATUS. -/

namespace Sys2Proof.Machine

/-- The code of an error (R101). -/
def ErrCode.code : ErrCode → BitVec 4
  | .none => 0#4
  | .frameLengthMismatch => 1#4
  | .integrityCheckFailed => 2#4
  | .preconditionViolation => 3#4
  | .illegalCommand => 4#4

/-- STATUS as read (R19, R62): `zext_32(VALID ++ ERR)`. -/
def State.statusWord (s : State) : Word :=
  (BitVec.ofBool s.valid ++ s.err.code).setWidth 32

/-- CTRL as read (R18, R62): `zext_32(KLOCK ++ ROLE)`. -/
def State.ctrlWord (s : State) : Word :=
  (BitVec.ofBool s.klock ++ s.role.bit).setWidth 32

/-- A write of CTRL (R18): ROLE first, by the lock before the write; then the lock, which a write can only set. -/
def State.writeCtrl (s : State) (w : Word) : State :=
  { s with
    role := if s.klock then s.role else Role.ofBit (w.extractLsb' 0 1)
    klock := s.klock || w.getLsbD 1 }

end Sys2Proof.Machine
end

