-- ==== Sys2Proof/Machine/Checksum.lean ====
section
/-! DEFINITION. The Checksum Engine: crc16 (R69) and the command CRC (R74). -/

namespace Sys2Proof.Machine

/-- `n` shift steps of the CRC register (R69): "if high bit set, shift left and XOR polynomial; else shift left". -/
def crcShift : Nat → Half → Half
  | 0, r => r
  | n + 1, r => if r.getLsbD 15 then crcShift n ((r <<< 1) ^^^ Config.poly) else crcShift n (r <<< 1)

/-- One byte enters the CRC register, at the high octet (R69, R70). -/
def crcByte (r : Half) (b : Byte) : Half :=
  crcShift 8 (r ^^^ (b.setWidth 16 <<< 8))

/-- `crc16` (R69), bytes in increasing offset order (R70). -/
def crc16 (bs : List Byte) : Half :=
  bs.foldl crcByte Config.crcInit

/-- CRC (R74): the checksum of BUF[0..LEN). -/
def execCrc (s : State) : Host.Outcome State Fault Refusal :=
  if Config.bufSize < s.len.toNat then .next (s.raise .preconditionViolation)
  else .next (s.setCrc (crc16 (Memory.bytes s.resets s.buf 0 s.len.toNat))).complete

end Sys2Proof.Machine
end

