-- ==== Sys2Proof/Machine/Cipher.lean ====
section
/-! DEFINITION. The Block Cipher Engine: the block functions (R75..R78), the buffer function (R82, R83), and the commands ENCB,
DECB, ENCBUF, DECBUF (R84..R87). The place of the sum's change in a round is decision D24 (entry 13). -/

namespace Sys2Proof.Machine

/-- The mixing function `F` (R76). -/
def mix (x : Word) : Word :=
  ((x <<< 4) ^^^ (x >>> 5)) + x

/-- What the v0 half of a round adds (R77): the key word is chosen by the low two bits of the sum. -/
def v0Term (k : Key) (sum v1 : Word) : Word :=
  mix v1 ^^^ (sum + k.word (sum.extractLsb' 0 2))

/-- What the v1 half of a round adds (R77): the key word is chosen by bits 12:11 of the sum. -/
def v1Term (k : Key) (sum v0 : Word) : Word :=
  mix v0 ^^^ (sum + k.word (sum.extractLsb' 11 2))

/-- A round of `encryptBlock` (R77) from the sum before it: v0, then the sum, then v1 by the new v0. -/
def encryptRound (k : Key) (sum : Word) (b : Block) : Block :=
  let v0 := b.v0 + v0Term k sum b.v1
  ⟨v0, b.v1 + v1Term k (sum + Config.delta) v0⟩

/-- A round of `decryptBlock` (R78) from the sum before it: v1, then the sum, then v0 by the new v1. -/
def decryptRound (k : Key) (sum : Word) (b : Block) : Block :=
  let v1 := b.v1 - v1Term k sum b.v0
  ⟨b.v0 - v0Term k (sum - Config.delta) v1, v1⟩

/-- `n` rounds of encryption from a sum. -/
def encryptRounds (k : Key) : Nat → Word → Block → Block
  | 0, _, b => b
  | n + 1, sum, b => encryptRounds k n (sum + Config.delta) (encryptRound k sum b)

/-- `n` rounds of decryption from a sum. -/
def decryptRounds (k : Key) : Nat → Word → Block → Block
  | 0, _, b => b
  | n + 1, sum, b => decryptRounds k n (sum - Config.delta) (decryptRound k sum b)

/-- `encryptBlock` (R77): the sum begins at 0. -/
def encryptBlock (k : Key) (b : Block) : Block :=
  encryptRounds k Config.rounds 0#32 b

/-- `decryptBlock` (R78): the sum begins at `DELTA * ROUNDS`. -/
def decryptBlock (k : Key) (b : Block) : Block :=
  decryptRounds k Config.rounds (Config.delta * BitVec.ofNat 32 Config.rounds) b

/-- Block `b` of BUF as a word pair (R82). -/
def Memory.block (d : Nat) (m : Memory) (b : Nat) : Block :=
  ⟨Memory.read32 d m (8 * b), Memory.read32 d m (8 * b + 4)⟩

/-- Store a word pair as block `b` of BUF (R82, R83). -/
def Memory.setBlock (m : Memory) (b : Nat) (x : Block) : Memory :=
  Memory.write32 (Memory.write32 m (8 * b) x.v0) (8 * b + 4) x.v1

/-- `cryptBuffer(n, k, f)` (R83) with `f` at its key: each block by itself, in increasing order, no chaining. -/
def Memory.crypt (d : Nat) (f : Block → Block) (m : Memory) (n : Nat) : Memory :=
  (List.range (n / 8)).foldl (fun m b => Memory.setBlock m b (f (Memory.block d m b))) m

/-- The length check of ENCBUF and DECBUF (R86, R87, R107), one check with one code. -/
def badCryptLength (n : Nat) : Bool :=
  n % 8 != 0 || Config.bufSize < n

/-- ENCB (R84). -/
def execEncb (ksel : Role) (s : State) : Host.Outcome State Fault Refusal :=
  .next (s.setV (encryptBlock (s.keyOf ksel) s.vBlock)).complete

/-- DECB (R85). -/
def execDecb (ksel : Role) (s : State) : Host.Outcome State Fault Refusal :=
  .next (s.setV (decryptBlock (s.keyOf ksel) s.vBlock)).complete

/-- ENCBUF (R86). -/
def execEncbuf (ksel : Role) (s : State) : Host.Outcome State Fault Refusal :=
  if badCryptLength s.len.toNat then .next (s.raise .preconditionViolation)
  else .next (s.setBuf (Memory.crypt s.resets (encryptBlock (s.keyOf ksel)) s.buf s.len.toNat)).complete

/-- DECBUF (R87). -/
def execDecbuf (ksel : Role) (s : State) : Host.Outcome State Fault Refusal :=
  if badCryptLength s.len.toNat then .next (s.raise .preconditionViolation)
  else .next (s.setBuf (Memory.crypt s.resets (decryptBlock (s.keyOf ksel)) s.buf s.len.toNat)).complete

end Sys2Proof.Machine
end

