-- ==== Sys2Proof/Machine/Codec.lean ====
section
/-! DEFINITION. The Packet Codec: packet layouts (R88..R93), the packet checksum (R95), and the commands SEND and RECV (R96, R97).
The block never interprets a field (R92), and serialisation is the identity on BUF (R93). -/

namespace Sys2Proof.Machine

/-- `PLEN(PT)` (R88). -/
def plen : PacketType → Nat
  | .telemetry => 32
  | .command => 32

/-- The wire layout of a packet (R89, R90). -/
def layout : PacketType → List Field
  | .telemetry =>
    [⟨0, "lon", .f32⟩, ⟨4, "lat", .f32⟩, ⟨8, "alt", .f32⟩, ⟨12, "vel3d", .f32⟩, ⟨16, "accel3d", .f32⟩, ⟨20, "time", .u32⟩,
     ⟨24, "reserved", .reserved 6⟩, ⟨30, "crc16", .u16⟩]
  | .command =>
    [⟨0, "m1", .u8⟩, ⟨1, "m2", .u8⟩, ⟨2, "m3", .u8⟩, ⟨3, "m4", .u8⟩, ⟨4, "s1", .i8⟩, ⟨5, "s2", .i8⟩, ⟨6, "s3", .i8⟩, ⟨7, "s4", .i8⟩,
     ⟨8, "reserved", .reserved 22⟩, ⟨30, "crc16", .u16⟩]

/-- Where the reserved region `RES(PT)` begins (R89, R90): [24, 30) or [8, 30). -/
def reservedStart : PacketType → Nat
  | .telemetry => 24
  | .command => 8

/-- Where the checksum field lies (R91): BUF[30..32), and the reserved region ends there. -/
def crcOffset : Nat := 30

/-- `packetChecksum()` (R95): the checksum field is read as zero. -/
def packetChecksum (d : Nat) (m : Memory) : Half :=
  crc16 (Memory.bytes d m 0 crcOffset ++ [0#8, 0#8])

/-- SEND's packet with its reserved region and its checksum field zeroed (R96). -/
def zeroedPacket (pt : PacketType) (m : Memory) : Memory :=
  Memory.write16 (Memory.zero m (reservedStart pt) (crcOffset - reservedStart pt)) crcOffset 0#16

/-- The checksum SEND stores (R96): over the full packet with its checksum field zeroed. -/
def sendChecksum (pt : PacketType) (d : Nat) (m : Memory) : Half :=
  crc16 (Memory.bytes d (zeroedPacket pt m) 0 (plen pt))

/-- The plaintext packet SEND encrypts (R96). -/
def plainPacket (pt : PacketType) (d : Nat) (m : Memory) : Memory :=
  Memory.write16 (zeroedPacket pt m) crcOffset (sendChecksum pt d m)

/-- SEND (R96): prepareForSend, in place. -/
def execSend (pt : PacketType) (s : State) : Host.Outcome State Fault Refusal :=
  let s := (s.setBuf (plainPacket pt s.resets s.buf)).setCrc (sendChecksum pt s.resets s.buf)
  let s := s.setBuf (Memory.crypt s.resets (encryptBlock s.outKey) s.buf (plen pt))
  .next (s.setLen (BitVec.ofNat 16 (plen pt))).complete

/-- What RECV leaves before its comparison (R97): BUF decrypted, RXCRC the embedded checksum, CRC the recomputed one. -/
def received (pt : PacketType) (s : State) : State :=
  let s := s.setBuf (Memory.crypt s.resets (decryptBlock s.inKey) s.buf (plen pt))
  (s.setRxcrc (Memory.read16 s.resets s.buf crcOffset)).setCrc (packetChecksum s.resets s.buf)

/-- RECV (R97): receiveAndValidate, in place. What BUF holds after a failed comparison is entry 12. -/
def execRecv (pt : PacketType) (s : State) : Host.Outcome State Fault Refusal :=
  if s.len.toNat ≠ plen pt then .next (s.raise .frameLengthMismatch)
  else if (received pt s).crc ≠ (received pt s).rxcrc then .next ((received pt s).raise .integrityCheckFailed)
  else .next (received pt s).completeValid

end Sys2Proof.Machine
end

