-- ==== Sys2Proof/Machine/Control.lean ====
section
/-! DEFINITION. The control command CLR. -/

namespace Sys2Proof.Machine

/-- CLR (R67): no operation; the frame of R65 clears STATUS. -/
def execClr (s : State) : Host.Outcome State Fault Refusal :=
  .next s.complete

end Sys2Proof.Machine
end

