-- ==== Sys2Proof/Machine/Dispatch.lean ====
section
/-! DEFINITION. One arm per command (R54). -/

namespace Sys2Proof.Machine

def exec (i : Instr) (s : State) : Host.Outcome State Fault Refusal :=
  match i with
  | .clr => Sys2Proof.Machine.execClr s
  | .crc => Sys2Proof.Machine.execCrc s
  | .encb ksel => Sys2Proof.Machine.execEncb ksel s
  | .decb ksel => Sys2Proof.Machine.execDecb ksel s
  | .encbuf ksel => Sys2Proof.Machine.execEncbuf ksel s
  | .decbuf ksel => Sys2Proof.Machine.execDecbuf ksel s
  | .send pt => Sys2Proof.Machine.execSend pt s
  | .recv pt => Sys2Proof.Machine.execRecv pt s

end Sys2Proof.Machine
end

