-- ==== Sys2Proof/Machine/HostAccess.lean ====
section
/-! DEFINITION. Host accesses (R59..R64), the write to CMD that performs a command (R20, R65), and the inputs of a step. -/

namespace Sys2Proof.Machine

/-- `perform` (R65): a command runs whole; an Illegal word only records ILLEGAL_COMMAND (R56). -/
def perform (c : Decoded) (s : State) : Host.Outcome State Fault Refusal :=
  match c with
  | .command i => exec i s
  | .illegal _ => .next (s.raise .illegalCommand)

/-- An admitted register read (R62). CMD and the keys read as 0 (R20, R25). -/
def State.readReg (s : State) : Reg → Word
  | .ctrl => s.ctrlWord
  | .status => s.statusWord
  | .cmd => 0#32
  | .len => s.len.setWidth 32
  | .crc => s.crc.setWidth 32
  | .rxcrc => s.rxcrc.setWidth 32
  | .v0 => s.v0
  | .v1 => s.v1
  | .keyC _ => 0#32
  | .keyV _ => 0#32

/-- An admitted register write (R63). -/
def writeReg (r : Reg) (w : Word) (s : State) : Host.Outcome State Fault Refusal :=
  match r with
  | .ctrl => .next (s.writeCtrl w)
  | .status => .next s
  | .cmd => perform (decode w) s
  | .len => .next (s.setLen (w.extractLsb' 0 16))
  | .crc => .next s
  | .rxcrc => .next s
  | .v0 => .next { s with v0 := w }
  | .v1 => .next { s with v1 := w }
  | .keyC i => .next (if s.klock then s else { s with keyC := s.keyC.setWord i w })
  | .keyV i => .next (if s.klock then s else { s with keyV := s.keyV.setWord i w })

/-- An admitted BUF read (R64): `MemRead(i, n)`. -/
def State.readBuf (s : State) (w : Width) (i : Nat) : Response :=
  match w with
  | .w8 => .value8 (Memory.byte s.resets s.buf i)
  | .w16 => .value16 (Memory.read16 s.resets s.buf i)
  | .w32 => .value32 (Memory.read32 s.resets s.buf i)

/-- The answer to a read (R59..R62, R64). A read has no side effect (R45). -/
def hostRead (w : Width) (off : Offset) (s : State) : Response :=
  match target w off with
  | none => .busError
  | some (.reg r) => .value32 (s.readReg r)
  | some (.buf i) => s.readBuf w i

/-- Put the answer to a host access to the outcome of performing it. -/
def answer (r : Response) (o : Host.Outcome State Fault Refusal) : Host.Outcome State Fault Refusal :=
  match o with
  | .next s => .next (s.respond r)
  | .fault f => .fault f
  | .refused f => .refused f

/-- A byte write (R60, R64): only BUF takes one. -/
def hostWrite8 (off : Offset) (v : Byte) (s : State) : Host.Outcome State Fault Refusal :=
  match target .w8 off with
  | some (.buf i) => answer .done (.next (s.setBuf (Memory.put s.buf i v)))
  | _ => answer .busError (.next s)

/-- A halfword write (R60, R64): only BUF takes one. -/
def hostWrite16 (off : Offset) (v : Half) (s : State) : Host.Outcome State Fault Refusal :=
  match target .w16 off with
  | some (.buf i) => answer .done (.next (s.setBuf (Memory.write16 s.buf i v)))
  | _ => answer .busError (.next s)

/-- A word write (R60, R63, R64). -/
def hostWrite32 (off : Offset) (v : Word) (s : State) : Host.Outcome State Fault Refusal :=
  match target .w32 off with
  | none => answer .busError (.next s)
  | some (.reg r) => answer .done (writeReg r v s)
  | some (.buf i) => answer .done (.next (s.setBuf (Memory.write32 s.buf i v)))

/-- A host access (R59). -/
def performAccess (a : Access) (s : State) : Host.Outcome State Fault Refusal :=
  match a with
  | .read w off => answer (hostRead w off s) (.next s)
  | .write8 off v => hostWrite8 off v s
  | .write16 off v => hostWrite16 off v s
  | .write32 off v => hostWrite32 off v s

/-- An input: a host access, or reset (R114). -/
def performInput (i : Input) (s : State) : Host.Outcome State Fault Refusal :=
  match i with
  | .access a => performAccess a s
  | .reset => .next s.afterReset

/-- The window offset of CMD (R20). -/
def cmdOffset : Offset := 0x008#9

/-- The host access that performs the command word `w` (R58). -/
def cmdWrite (w : Word) : Input :=
  .access (.write32 cmdOffset w)

/-- The machine with nothing pending is idle (R116); otherwise the first pending input is performed (R46). -/
def stepOnce (s : State) : Host.Outcome State Fault Refusal :=
  match s.pending with
  | [] => .next s
  | i :: rest => performInput i (s.setPending rest)

end Sys2Proof.Machine
end

