-- ==== Sys2Proof/Machine/Step.lean ====
section
/-! DEFINITION. One step: one input of the block, a command with the write that starts it (R14, R47, R125). -/

namespace Sys2Proof.Machine

/-- One step (R46, R47, R125; entries 1 and 9). -/
def step (s : State) : Host.Outcome State Fault Refusal :=
  stepOnce s

/-- The state whose next step performs the command word `w` (entry 11): the write of the word to CMD, before all that is
pending. -/
def State.withFetchWord (s : State) (nbits w : Nat) : State :=
  s.setPending (cmdWrite (tableWord nbits w) :: s.pending)

end Sys2Proof.Machine
end

