-- ==== Sys2Proof/Machine/Listing.lean ====
section
/-! DEFINITION. Host-access listings (R57) and the pseudo-instructions they are written with (R58). No step reads this file: a
listing is what a host performs. -/

namespace Sys2Proof.Machine

/-- The lines of a listing that stand for host accesses (R58): a command, and the named register writes. -/
inductive Pseudo where
  | command (i : Instr)
  | setrole (r : Role)
  | lock (r : Role)
  | setkey (r : Role) (k : Key)
  | setlen (n : Word)
  | setv (b : Block)
deriving DecidableEq, Repr

/-- The first key offset of a role (R25, R38). -/
def keyOffset : Role → Offset
  | .controller => 0x020#9
  | .vehicle => 0x030#9

/-- The host accesses a pseudo-instruction stands for, in order (R58). -/
def Pseudo.expand : Pseudo → List Access
  | .command i => [.write32 0x008#9 (encode i)]
  | .setrole r => [.write32 0x000#9 (r.bit.setWidth 32)]
  | .lock r => [.write32 0x000#9 ((1#1 ++ r.bit).setWidth 32)]
  | .setkey r k =>
    [.write32 (keyOffset r) k.k0, .write32 (keyOffset r + 4#9) k.k1, .write32 (keyOffset r + 8#9) k.k2,
     .write32 (keyOffset r + 12#9) k.k3]
  | .setlen n => [.write32 0x00C#9 n]
  | .setv b => [.write32 0x018#9 b.v0, .write32 0x01C#9 b.v1]

/-- A listing as the inputs of the block. -/
def listing (ps : List Pseudo) : List Input :=
  (ps.flatMap Pseudo.expand).map .access

end Sys2Proof.Machine
end

