-- ==== Sys2Proof/Safety.lean ====
section
/-! DEFINITION. The terms in which claims about runs are stated: the invariant, the state without its inputs and answers, and the
spec's own ways of writing bytes and blocks. -/

namespace Sys2Proof.Machine

/-- What every step keeps: BUF in its canonical form (entry 4); VALID only beside NONE and with the two checksums equal (R19, R97);
INTEGRITY_CHECK_FAILED only with the two checksums different (R97, R101). -/
structure Inv (s : State) : Prop where
  buf_wf : Memory.wf s.buf = true
  valid_err : s.valid = true → s.err = .none
  valid_crc : s.valid = true → s.crc = s.rxcrc
  failed_crc : s.err = .integrityCheckFailed → s.crc ≠ s.rxcrc

/-- A state without its inputs and answers: the state of R15 and the counter of resets. -/
def State.bare (s : State) : State :=
  { s with pending := [], responses := [] }

/-- The machine runs `n` steps from `s` and arrives at `t`, with no fault and no refusal on the way. -/
def runsTo (n : Nat) (s t : State) : Prop :=
  Host.Core.run Sys2Proof.core n s = Host.Outcome.next t

/-- The window offset of an access (R59). -/
def accessOffset : Access → Offset
  | .read _ off => off
  | .write8 off _ => off
  | .write16 off _ => off
  | .write32 off _ => off

/-- The width of an access (R59). -/
def accessWidth : Access → Width
  | .read w _ => w
  | .write8 _ _ => .w8
  | .write16 _ _ => .w16
  | .write32 _ _ => .w32

/-- The host accesses in a listing. -/
def accessCount (p : List Input) : Nat :=
  p.countP fun i => i != .reset

/-- The machine about to perform the input `i`, with `rest` still to come. -/
def State.facing (s : State) (i : Input) (rest : List Input) : State :=
  { s with pending := i :: rest }

/-- The machine after an access that left it as `s` and was answered `r`, with `rest` still to come. -/
def State.answered (s : State) (r : Response) (rest : List Input) : State :=
  { s with pending := rest, responses := r :: s.responses }

/-- "v0 = the word at block bytes 0..3, v1 = the word at block bytes 4..7, each little-endian" (R40, R82), of block `b` of a
sequence of bytes. -/
def blockOf (p : Nat → Byte) (b : Nat) : Block :=
  ⟨p (8 * b + 3) ++ p (8 * b + 2) ++ p (8 * b + 1) ++ p (8 * b),
   p (8 * b + 7) ++ p (8 * b + 6) ++ p (8 * b + 5) ++ p (8 * b + 4)⟩

/-- Byte `j` of a block (R40, R82): bytes 0..3 are v0's from the least significant on, bytes 4..7 are v1's. -/
def byteOf (x : Block) (j : Nat) : Byte :=
  if j < 4 then x.v0.extractLsb' (8 * j) 8 else x.v1.extractLsb' (8 * (j - 4)) 8

/-- The bytes of a packet decrypted block by block (R83). -/
def decryptedByte (k : Key) (p : Nat → Byte) (i : Nat) : Byte :=
  byteOf (decryptBlock k (blockOf p (i / 8))) (i % 8)

/-- A packet with its reserved region from `r` on and its checksum field zeroed (R96). -/
def zeroedByte (r : Nat) (p : Nat → Byte) (i : Nat) : Byte :=
  if r ≤ i ∧ i < 32 then 0#8 else p i

/-- The checksum of 32 bytes (R69). -/
def checksum32 (p : Nat → Byte) : Half :=
  crc16 ((List.range 32).map p)

/-- A packet with the checksum `c` in its checksum field, little-endian (R91). -/
def withChecksum (c : Half) (p : Nat → Byte) (i : Nat) : Byte :=
  if i = 30 then c.extractLsb' 0 8 else if i = 31 then c.extractLsb' 8 8 else p i

/-- The packet SEND encrypts, from the bytes in BUF and the start of the reserved region (R96). -/
def sentByte (r : Nat) (p : Nat → Byte) : Nat → Byte :=
  withChecksum (checksum32 (zeroedByte r p)) (zeroedByte r p)

end Sys2Proof.Machine
end

