-- ==== Sys2Proof/Certificates/Slice0/Obligations.lean ====
section
/-! DEFINITION. The statements for the provers. Each docstring names the rules of spec/ it formalises. -/

open Sys2Proof Sys2Proof.Machine

/-! ## Encoding -/

/-- R54: "The fourteen legal words", each with the command it stands for. -/
def Obligations.LegalWordsDecodeToTheirCommand : Prop :=
  decode 0x00000000#32 = .command .clr ∧ decode 0x00000001#32 = .command .crc ∧
  decode 0x00000002#32 = .command (.encb .controller) ∧ decode 0x00000012#32 = .command (.encb .vehicle) ∧
  decode 0x00000003#32 = .command (.decb .controller) ∧ decode 0x00000013#32 = .command (.decb .vehicle) ∧
  decode 0x00000004#32 = .command (.encbuf .controller) ∧ decode 0x00000014#32 = .command (.encbuf .vehicle) ∧
  decode 0x00000005#32 = .command (.decbuf .controller) ∧ decode 0x00000015#32 = .command (.decbuf .vehicle) ∧
  decode 0x00000006#32 = .command (.send .telemetry) ∧ decode 0x00000026#32 = .command (.send .command) ∧
  decode 0x00000007#32 = .command (.recv .telemetry) ∧ decode 0x00000027#32 = .command (.recv .command)

/-- R51, R54, R55: encoding an instruction and decoding the word gives the instruction back, and the word an instruction is
decoded from is its encoding, so that no word has two meanings and no instruction two words. -/
def Obligations.DecodeAndEncodeAgree : Prop :=
  (∀ i : Instr, decode (encode i) = .command i) ∧ ∀ (w : Word) (i : Instr), decode w = .command i → w = encode i

/-- R55: decode is total, a word is a command exactly when a row of the opcode map (R54) hits it, the command is that row's, its
key selector is bit 4 and its packet type bit 5, and a word is Illegal exactly when no row hits it. -/
def Obligations.DecodeFollowsTheOpcodeMap : Prop :=
  ∀ w : Word,
    (∀ i, decode w = .command i → ∃ r ∈ opcodeMap, r.hits w = true ∧ r.mnemonic = i.mnemonic) ∧
    (∀ r ∈ opcodeMap, r.hits w = true → ∃ i, decode w = .command i ∧ i.mnemonic = r.mnemonic) ∧
    ((∃ why, decode w = .illegal why) ↔ ∀ r ∈ opcodeMap, r.hits w = false) ∧
    (∀ k, decode w = .command (.encb k) ∨ decode w = .command (.decb k) ∨ decode w = .command (.encbuf k) ∨
      decode w = .command (.decbuf k) → (k = .vehicle ↔ w.getLsbD 4 = true)) ∧
    (∀ p, decode w = .command (.send p) ∨ decode w = .command (.recv p) → (p = .command ↔ w.getLsbD 5 = true))

/-- R56, R105: writing any word but the fourteen legal ones to CMD records ILLEGAL_COMMAND with VALID 0 and changes nothing else. -/
def Obligations.EveryOtherWordOnlyRecordsIllegalCommand : Prop :=
  ∀ (s : State) (w : Word) (rest : List Input),
    w ∉ [0x00#32, 0x01#32, 0x02#32, 0x12#32, 0x03#32, 0x13#32, 0x04#32, 0x14#32, 0x05#32, 0x15#32, 0x06#32, 0x26#32, 0x07#32,
      0x27#32] →
    step (s.facing (.access (.write32 0x008#9 w)) rest) =
      .next { s with err := .illegalCommand, valid := false, pending := rest, responses := .done :: s.responses }

/-! ## Steps and host accesses -/

/-- R47, R65: when the next input is the write to CMD of a word that decodes to the instruction `i`, the step performs the whole
of `exec i` on the machine without that input, and answers the write done. -/
def Obligations.StepRunsTheDecodedCommand : Prop :=
  ∀ (s : State) (w : Word) (i : Instr) (rest : List Input), decode w = .command i →
    ∃ t, exec i { s with pending := rest } = .next t ∧
      step (s.facing (.access (.write32 0x008#9 w)) rest) = .next (t.answered .done rest)

/-- R62 (with the codes of R101): what a word read of each register offset answers; it changes nothing but the inputs and answers. -/
def Obligations.RegisterReadsAnswerTheirValue : Prop :=
  ∀ (s : State) (rest : List Input),
    let reads (off : Offset) (v : Word) : Prop :=
      step (s.facing (.access (.read .w32 off)) rest) = .next (s.answered (.value32 v) rest)
    let err : BitVec 4 := match s.err with
      | .none => 0#4 | .frameLengthMismatch => 1#4 | .integrityCheckFailed => 2#4 | .preconditionViolation => 3#4
      | .illegalCommand => 4#4
    reads 0x000#9 ((BitVec.ofBool s.klock ++ BitVec.ofBool (s.role == .vehicle)).setWidth 32) ∧
    reads 0x004#9 ((BitVec.ofBool s.valid ++ err).setWidth 32) ∧
    reads 0x008#9 0#32 ∧
    reads 0x00C#9 (s.len.setWidth 32) ∧
    reads 0x010#9 (s.crc.setWidth 32) ∧
    reads 0x014#9 (s.rxcrc.setWidth 32) ∧
    reads 0x018#9 s.v0 ∧
    reads 0x01C#9 s.v1 ∧
    ∀ i : Nat, i < 8 → reads (BitVec.ofNat 9 (0x020 + 4 * i)) 0#32

/-- R63: what a word write of each register offset does, each answered done, and nothing else changes. A write of CMD performs the
command decoded from the word. -/
def Obligations.RegisterWritesHaveTheirEffect : Prop :=
  ∀ (s : State) (w : Word) (rest : List Input),
    let writes (off : Offset) (t : State) : Prop :=
      step (s.facing (.access (.write32 off w)) rest) = .next (t.answered .done rest)
    let key (old : Word) : Word := if s.klock = true then old else w
    writes 0x000#9 { s with
      role := if s.klock = true then s.role else if w.getLsbD 0 = true then .vehicle else .controller
      klock := if w.getLsbD 1 = true then true else s.klock } ∧
    writes 0x004#9 s ∧
    step (s.facing (.access (.write32 0x008#9 w)) rest) = answer .done (perform (decode w) { s with pending := rest }) ∧
    writes 0x00C#9 { s with len := w.extractLsb' 0 16 } ∧
    writes 0x010#9 s ∧
    writes 0x014#9 s ∧
    writes 0x018#9 { s with v0 := w } ∧
    writes 0x01C#9 { s with v1 := w } ∧
    writes 0x020#9 { s with keyC := { s.keyC with k0 := key s.keyC.k0 } } ∧
    writes 0x024#9 { s with keyC := { s.keyC with k1 := key s.keyC.k1 } } ∧
    writes 0x028#9 { s with keyC := { s.keyC with k2 := key s.keyC.k2 } } ∧
    writes 0x02C#9 { s with keyC := { s.keyC with k3 := key s.keyC.k3 } } ∧
    writes 0x030#9 { s with keyV := { s.keyV with k0 := key s.keyV.k0 } } ∧
    writes 0x034#9 { s with keyV := { s.keyV with k1 := key s.keyV.k1 } } ∧
    writes 0x038#9 { s with keyV := { s.keyV with k2 := key s.keyV.k2 } } ∧
    writes 0x03C#9 { s with keyV := { s.keyV with k3 := key s.keyV.k3 } }

/-- R60, R61: an access to a register offset by an aligned word, or to BUF aligned to its width, is admitted and not answered
BusError; every other access is answered BusError and changes no state. -/
def Obligations.OnlyAdmittedAccessesActAndOthersAnswerBusError : Prop :=
  ∀ (s : State) (a : Access) (rest : List Input),
    let off := (accessOffset a).toNat
    let adm := (off < 0x040 ∧ accessWidth a = .w32 ∧ off % 4 = 0) ∨ (0x100 ≤ off ∧ off % bytesOf (accessWidth a) = 0)
    (adm → ∃ t r, step (s.facing (.access a) rest) = .next t ∧ t.pending = rest ∧ t.responses = r :: s.responses ∧
      r ≠ .busError) ∧
    (¬adm → step (s.facing (.access a) rest) = .next (s.answered .busError rest))

/-- R64 (with R11 and R40): an admitted BUF access of each width reads, or writes, the bytes from its index on, little-endian; a
write leaves every other byte of BUF and all other state as it was. -/
def Obligations.BufferAccessesReadAndWriteTheirBytes : Prop :=
  ∀ (s : State) (rest : List Input) (i : Nat), i < 256 →
    let off : Offset := BitVec.ofNat 9 (0x100 + i)
    let writes (a : Access) (new : Nat → Byte) : Prop :=
      ∃ m, step (s.facing (.access a) rest) = .next ({ s with buf := m }.answered .done rest) ∧
        ∀ j, Memory.byte s.resets m j = new j
    step (s.facing (.access (.read .w8 off)) rest) = .next (s.answered (.value8 (s.byte i)) rest) ∧
    (i % 2 = 0 → step (s.facing (.access (.read .w16 off)) rest) =
      .next (s.answered (.value16 (s.byte (i + 1) ++ s.byte i)) rest)) ∧
    (i % 4 = 0 → step (s.facing (.access (.read .w32 off)) rest) =
      .next (s.answered (.value32 (s.byte (i + 3) ++ s.byte (i + 2) ++ s.byte (i + 1) ++ s.byte i)) rest)) ∧
    (∀ v : Byte, writes (.write8 off v) fun j => if j = i then v else s.byte j) ∧
    (∀ v : Half, i % 2 = 0 → writes (.write16 off v) fun j =>
      if i ≤ j ∧ j < i + 2 then v.extractLsb' (8 * (j - i)) 8 else s.byte j) ∧
    (∀ v : Word, i % 4 = 0 → writes (.write32 off v) fun j =>
      if i ≤ j ∧ j < i + 4 then v.extractLsb' (8 * (j - i)) 8 else s.byte j)

/-- R45: a host read has no side effect, and performing the same write, other than one to CMD, a second time leaves the state the
first left. -/
def Obligations.ReadsHaveNoSideEffectAndWritesAreIdempotent : Prop :=
  (∀ (s : State) (w : Width) (off : Offset) (rest : List Input), ∃ r,
    step (s.facing (.access (.read w off)) rest) = .next (s.answered r rest)) ∧
  ∀ (s : State) (a : Access) (rest : List Input), accessOffset a ≠ 0x008#9 → ∃ t u,
    step (s.facing (.access a) (.access a :: rest)) = .next t ∧ step t = .next u ∧ u.bare = t.bare

/-- What a step does depends on the state and its own input, not on the inputs still to come, nor on the answers given; it keeps
the first and puts its answers before the second. For a host access, that it sees no later access is R46. The rest is the
model's choice: the list of inputs (entry 1), the list of answers (entry 2), and that the reset input keeps both (entry 5). -/
def Obligations.StepsDoNotSeeLaterInputsOrEarlierAnswers : Prop :=
  ∀ (s : State) (i : Input) (p q : List Input) (r r' : List Response), ∃ (t : State) (new : List Response),
    step { s with pending := i :: p, responses := r } = .next { t with pending := p, responses := new ++ r } ∧
    step { s with pending := i :: q, responses := r' } = .next { t with pending := q, responses := new ++ r' }

/-- R59, R66, R126: from every state the machine performs its whole list of inputs, one step each, with no fault and no refusal,
and answers every host access. R126's listing is of host accesses only; the count of steps and of answers, and that a reset
among the inputs takes one step, answers nothing and keeps the rest, are the model's choice (entries 1, 2 and 5). -/
def Obligations.EveryListingIsPerformedToItsEnd : Prop :=
  ∀ s : State, ∃ t, runsTo s.pending.length s t ∧ t.pending = [] ∧
    t.responses.length = s.responses.length + accessCount s.pending

/-- R35, R36 (BASE is open, entry 6): a bus address is in the window exactly when it is BASE plus an offset, and then it names
that offset, whatever BASE is. -/
def Obligations.BusAddressesNameTheirOffset : Prop :=
  ∀ (a : Nat) (off : Offset), windowOffset a = some off ↔ a = busAddress off

/-! ## Reset and whole-machine rules -/

/-- R34: the values after reset. The bytes of BUF are free values (entry 3). -/
def Obligations.ResetStateHasTheResetValues : Prop :=
  let s := State.reset
  s.role = .controller ∧ s.klock = false ∧ s.err = .none ∧ s.valid = false ∧ s.len = 0#16 ∧ s.crc = 0#16 ∧ s.rxcrc = 0#16 ∧
  s.v0 = 0#32 ∧ s.v1 = 0#32 ∧ s.keyC = ⟨0#32, 0#32, 0#32, 0#32⟩ ∧ s.keyV = ⟨0#32, 0#32, 0#32, 0#32⟩ ∧
  ∀ i, s.byte i = Config.resetByte s.resets i

/-- R114: the reset input gives every register and key word 0, KLOCK and STATUS 0, and every byte of BUF a free value of a new
draw; the inputs to come and the answers given stay (entries 3 and 5). -/
def Obligations.ResetInputGivesTheResetValues : Prop :=
  ∀ (s : State) (rest : List Input), ∃ t, step (s.facing .reset rest) = .next t ∧
    t.role = .controller ∧ t.klock = false ∧ t.err = .none ∧ t.valid = false ∧ t.len = 0#16 ∧ t.crc = 0#16 ∧ t.rxcrc = 0#16 ∧
    t.v0 = 0#32 ∧ t.v1 = 0#32 ∧ t.keyC = ⟨0#32, 0#32, 0#32, 0#32⟩ ∧ t.keyV = ⟨0#32, 0#32, 0#32, 0#32⟩ ∧
    t.resets = s.resets + 1 ∧ (∀ i, t.byte i = Config.resetByte t.resets i) ∧ t.pending = rest ∧ t.responses = s.responses

/-- The invariant of `Machine.Inv` holds after reset. -/
def Obligations.InvariantHoldsAtReset : Prop :=
  Inv State.reset

/-- R19, R97, R101 (and entry 4): every step keeps the invariant: BUF stays in its canonical form, VALID stands only beside NONE
and equal checksums, and INTEGRITY_CHECK_FAILED only with different ones. -/
def Obligations.EveryStepKeepsTheInvariant : Prop :=
  ∀ s t : State, Inv s → step s = .next t → Inv t

/-- R115, the spec's own inference from R18 and R25: "Reset is the only way to clear CTRL.KLOCK, and with it the only way to
change the keys or CTRL.ROLE once locked": over every run in whose inputs there is no reset. -/
def Obligations.LockedKeysAndRoleStayUntilReset : Prop :=
  ∀ (n : Nat) (s : State), s.klock = true → Input.reset ∉ s.pending → ∃ t, runsTo n s t ∧
    t.klock = true ∧ t.role = s.role ∧ t.keyC = s.keyC ∧ t.keyV = s.keyV

/-- R18, R25: CTRL.ROLE and the keys change only by reset or, while KLOCK is 0, by a word write at their own offset; KLOCK is set
only by such a write of CTRL. No command writes them. -/
def Obligations.KeysRoleAndLockChangeOnlyByHostWritesOrReset : Prop :=
  ∀ s t : State, step s = .next t → s.pending.head? ≠ some .reset →
    (t.role ≠ s.role → s.klock = false ∧ ∃ w, s.pending.head? = some (.access (.write32 0x000#9 w)) ∧
      (t.role = .vehicle ↔ w.getLsbD 0 = true)) ∧
    (t.klock ≠ s.klock → t.klock = true ∧ ∃ w, s.pending.head? = some (.access (.write32 0x000#9 w)) ∧ w.getLsbD 1 = true) ∧
    (t.keyC ≠ s.keyC → s.klock = false ∧ ∃ i w, i < 4 ∧
      s.pending.head? = some (.access (.write32 (BitVec.ofNat 9 (0x020 + 4 * i)) w))) ∧
    (t.keyV ≠ s.keyV → s.klock = false ∧ ∃ i w, i < 4 ∧
      s.pending.head? = some (.access (.write32 (BitVec.ofNat 9 (0x030 + 4 * i)) w)))

/-- R117 (with R58): the initialisation of a host, both keys written, then the role set and locked by one write, from every unlocked
state: nine steps, each access answered done, leave the keys, the role and the lock as written and all other state as it was. -/
def Obligations.InitialisationListingSetsKeysRoleAndLock : Prop :=
  ∀ (s : State) (r : Role) (kc kv : Key) (rest : List Input), s.klock = false →
    runsTo 9 { s with pending := listing [.setkey .controller kc, .setkey .vehicle kv, .lock r] ++ rest }
      { s with keyC := kc, keyV := kv, role := r, klock := true, pending := rest,
               responses := List.replicate 9 .done ++ s.responses }

/-- R19, R22, R23, R106: STATUS, CRC and RXCRC change only by a write to CMD or by reset: no other access, a refused one included,
changes them. -/
def Obligations.StatusAndChecksumsChangeOnlyByCommandsOrReset : Prop :=
  ∀ s t : State, step s = .next t → t.err ≠ s.err ∨ t.valid ≠ s.valid ∨ t.crc ≠ s.crc ∨ t.rxcrc ≠ s.rxcrc →
    s.pending.head? = some .reset ∨ ∃ w, s.pending.head? = some (.access (.write32 0x008#9 w))

/-- R19, R101: in a state that meets the invariant, a read of STATUS answers one of six words: the codes 5 to 15 and the reserved
bits never show, and VALID shows only with code 0. -/
def Obligations.StatusReadsOneOfSixWords : Prop :=
  ∀ (s : State) (rest : List Input), Inv s → ∃ v ∈ [0x00#32, 0x01#32, 0x02#32, 0x03#32, 0x04#32, 0x10#32],
    step (s.facing (.access (.read .w32 0x004#9)) rest) = .next (s.answered (.value32 v) rest)

/-! ## Every command -/

/-- R33, the spec's own summary of the command rules: what each command leaves unchanged. CTRL, the keys, the inputs and the
answers by all; V0 and V1 by all but ENCB and DECB; RXCRC by all but RECV; CRC by all but CRC, SEND and RECV; LEN by all but
SEND; each byte of BUF but those below LEN by ENCBUF and DECBUF and those below 32 by SEND and RECV. -/
def Obligations.CommandsChangeOnlyTheirOwnState : Prop :=
  ∀ (i : Instr) (s : State), ∃ t, exec i s = .next t ∧
    t.role = s.role ∧ t.klock = s.klock ∧ t.keyC = s.keyC ∧ t.keyV = s.keyV ∧
    t.resets = s.resets ∧ t.pending = s.pending ∧ t.responses = s.responses ∧
    ((∀ k, i ≠ .encb k) → (∀ k, i ≠ .decb k) → t.v0 = s.v0 ∧ t.v1 = s.v1) ∧
    ((∀ p, i ≠ .recv p) → t.rxcrc = s.rxcrc) ∧
    (i ≠ .crc → (∀ p, i ≠ .send p) → (∀ p, i ≠ .recv p) → t.crc = s.crc) ∧
    ((∀ p, i ≠ .send p) → t.len = s.len) ∧
    ∀ j, t.byte j ≠ s.byte j →
      (∃ k, (i = .encbuf k ∨ i = .decbuf k) ∧ j < s.len.toNat) ∨ (∃ p, (i = .send p ∨ i = .recv p) ∧ j < 32)

/-- R101, R107, R109: which command records which code and when, VALID only by RECV, and for the codes 1 and 3 nothing but STATUS
changed. -/
def Obligations.CommandsRecordTheirErrorCodes : Prop :=
  ∀ (i : Instr) (s : State), ∃ t, exec i s = .next t ∧
    (t.valid = true → t.err = .none ∧ ∃ p, i = .recv p) ∧
    t.err ≠ .illegalCommand ∧
    (t.err = .frameLengthMismatch ↔ ∃ p, i = .recv p ∧ s.len ≠ 32#16) ∧
    (t.err = .preconditionViolation ↔ (i = .crc ∧ 256 < s.len.toNat) ∨
      ∃ k, (i = .encbuf k ∨ i = .decbuf k) ∧ (s.len.toNat % 8 ≠ 0 ∨ 256 < s.len.toNat)) ∧
    (t.err = .integrityCheckFailed ↔ ∃ p, i = .recv p ∧ s.len = 32#16 ∧ t.crc ≠ t.rxcrc) ∧
    (t.err = .frameLengthMismatch ∨ t.err = .preconditionViolation → t = { s with err := t.err, valid := false })

/-- R31, R65: no command reads STATUS: what it does is the same whatever STATUS holds before. -/
def Obligations.CommandsDoNotReadStatus : Prop :=
  ∀ (i : Instr) (s : State) (e : ErrCode) (v : Bool), exec i { s with err := e, valid := v } = exec i s

/-- R67: CLR is the word 0 only; it clears STATUS and touches nothing else. -/
def Obligations.ClrClearsStatusOnly : Prop :=
  (∀ w : Word, decode w = .command .clr ↔ w = 0x00000000#32) ∧
  ∀ s : State, exec .clr s = .next { s with err := .none, valid := false }

/-! ## Checksum Engine -/

/-- R69, R71: the CRC register begins at 0xFFFF, and each byte enters its high octet and is shifted in by eight steps of shift
left and, where the high bit was set, exclusive or with 0x1021. -/
def Obligations.Crc16ShiftsInByteByByte : Prop :=
  crc16 [] = 0xFFFF#16 ∧ ∀ (bs : List Byte) (b : Byte),
    crc16 (bs ++ [b]) =
      (fun r : Half => if r.getLsbD 15 = true then (r <<< 1) ^^^ 0x1021#16 else r <<< 1)^[8] (crc16 bs ^^^ (b.setWidth 16 <<< 8))

/-- R73 (a), the spec's own inference from R69: appending a checksum, most significant byte first, gives the residue 0. -/
def Obligations.AppendedChecksumLeavesResidueZero : Prop :=
  ∀ m : List Byte, crc16 (m ++ [(crc16 m).extractLsb' 8 8, (crc16 m).extractLsb' 0 8]) = 0x0000#16

/-- R73 (b), the spec's own inference from R69, in a stronger form: replacing any one byte of an input by another, so changing any
one bit, changes the checksum. -/
def Obligations.ChangingOneByteChangesTheChecksum : Prop :=
  ∀ (m n : List Byte) (b c : Byte), b ≠ c → crc16 (m ++ b :: n) ≠ crc16 (m ++ c :: n)

/-- R74: CRC is the word 1 only; it writes the checksum of BUF[0..LEN), or records PRECONDITION_VIOLATION and changes nothing else
when LEN is above 256. -/
def Obligations.CrcWritesTheChecksumOfTheBuffer : Prop :=
  (∀ w : Word, decode w = .command .crc ↔ w = 0x00000001#32) ∧
  ∀ s : State,
    (s.len.toNat ≤ 256 →
      exec .crc s = .next { s with crc := crc16 ((List.range s.len.toNat).map s.byte), err := .none, valid := false }) ∧
    (256 < s.len.toNat → exec .crc s = .next { s with err := .preconditionViolation, valid := false })

/-- R72: the checksum depends on the bytes alone: two states with the same LEN and the same bytes below it get the same CRC. -/
def Obligations.CrcDependsOnlyOnLengthAndBytes : Prop :=
  ∀ s s' : State, s.len = s'.len → s.len.toNat ≤ 256 → (∀ i, i < s.len.toNat → s.byte i = s'.byte i) →
    ∃ t t', exec .crc s = .next t ∧ exec .crc s' = .next t' ∧ t.crc = t'.crc

/-! ## Block Cipher Engine -/

/-- R76, R77, R78, R80, where the place of the sum's growth is what D24 takes from general knowledge (entry 13): both block
functions as 32 rounds with the sum written out: round `i` of encryption has the sum `i * DELTA` for v0 and `(i + 1) * DELTA`
for v1, and round `i` of decryption `(32 - i) * DELTA` for v1 and `(31 - i) * DELTA` for v0; the key words are chosen by bits
1:0 and bits 12:11 of those sums, in the first eight rounds in the order R80 gives. -/
def Obligations.BlockFunctionsAreThirtyTwoRounds : Prop :=
  let F (x : Word) : Word := ((x <<< 4) ^^^ (x >>> 5)) + x
  let sum (i : Nat) : Word := BitVec.ofNat 32 i * 0x9E3779B9#32
  let lo (i : Nat) : BitVec 2 := (sum i).extractLsb' 0 2
  let hi (i : Nat) : BitVec 2 := (sum i).extractLsb' 11 2
  (∀ (k : Key) (b : Block), encryptBlock k b = (List.range 32).foldl (fun b i =>
    let v0 := b.v0 + (F b.v1 ^^^ (sum i + k.word (lo i)))
    ⟨v0, b.v1 + (F v0 ^^^ (sum (i + 1) + k.word (hi (i + 1))))⟩) b) ∧
  (∀ (k : Key) (b : Block), decryptBlock k b = (List.range 32).foldl (fun b i =>
    let v1 := b.v1 - (F b.v0 ^^^ (sum (32 - i) + k.word (hi (32 - i))))
    ⟨b.v0 - (F v1 ^^^ (sum (31 - i) + k.word (lo (31 - i)))), v1⟩) b) ∧
  (List.range 8).map lo = [0#2, 1#2, 2#2, 3#2, 0#2, 1#2, 2#2, 3#2] ∧
  (List.range 8).map (fun i => hi (i + 1)) = [3#2, 2#2, 1#2, 0#2, 0#2, 3#2, 2#2, 1#2]

/-- R79, the spec's own inference from R77 and R78: decryption undoes encryption and encryption undoes decryption, for every key
and block. -/
def Obligations.DecryptionInvertsEncryption : Prop :=
  ∀ (k : Key) (b : Block), decryptBlock k (encryptBlock k b) = b ∧ encryptBlock k (decryptBlock k b) = b

/-- R84, with its two words: ENCB replaces V0, V1 by their encryption under the key KSEL selects, and changes nothing but STATUS
besides. -/
def Obligations.EncbEncryptsTheOperandBlock : Prop :=
  ∀ (ksel : Role) (s : State),
    let r := encryptBlock (match ksel with | .controller => s.keyC | .vehicle => s.keyV) ⟨s.v0, s.v1⟩
    (∀ w : Word, decode w = .command (.encb ksel) ↔ w = match ksel with | .controller => 0x02#32 | .vehicle => 0x12#32) ∧
    exec (.encb ksel) s = .next { s with v0 := r.v0, v1 := r.v1, err := .none, valid := false }

/-- R85, with its two words: DECB replaces V0, V1 by their decryption under the key KSEL selects, and changes nothing but STATUS
besides. -/
def Obligations.DecbDecryptsTheOperandBlock : Prop :=
  ∀ (ksel : Role) (s : State),
    let r := decryptBlock (match ksel with | .controller => s.keyC | .vehicle => s.keyV) ⟨s.v0, s.v1⟩
    (∀ w : Word, decode w = .command (.decb ksel) ↔ w = match ksel with | .controller => 0x03#32 | .vehicle => 0x13#32) ∧
    exec (.decb ksel) s = .next { s with v0 := r.v0, v1 := r.v1, err := .none, valid := false }

/-- R86, with its two words (and R82, R83): ENCBUF encrypts each block of BUF[0..LEN) by itself and leaves every other byte; on a
length that is no multiple of 8 or above 256 it records PRECONDITION_VIOLATION and changes nothing else. -/
def Obligations.EncbufEncryptsTheBufferBlockByBlock : Prop :=
  ∀ (ksel : Role) (s : State),
    let n := s.len.toNat
    let k := match ksel with | .controller => s.keyC | .vehicle => s.keyV
    (∀ w : Word, decode w = .command (.encbuf ksel) ↔ w = match ksel with | .controller => 0x04#32 | .vehicle => 0x14#32) ∧
    (n % 8 ≠ 0 ∨ 256 < n → exec (.encbuf ksel) s = .next { s with err := .preconditionViolation, valid := false }) ∧
    (n % 8 = 0 → n ≤ 256 → ∃ m, exec (.encbuf ksel) s = .next { s with buf := m, err := .none, valid := false } ∧
      (∀ b, b < n / 8 → blockOf (Memory.byte s.resets m) b = encryptBlock k (blockOf s.byte b)) ∧
      ∀ i, n ≤ i → Memory.byte s.resets m i = s.byte i)

/-- R87, with its two words (and R82, R83): DECBUF decrypts each block of BUF[0..LEN) by itself and leaves every other byte; on a
length that is no multiple of 8 or above 256 it records PRECONDITION_VIOLATION and changes nothing else. -/
def Obligations.DecbufDecryptsTheBufferBlockByBlock : Prop :=
  ∀ (ksel : Role) (s : State),
    let n := s.len.toNat
    let k := match ksel with | .controller => s.keyC | .vehicle => s.keyV
    (∀ w : Word, decode w = .command (.decbuf ksel) ↔ w = match ksel with | .controller => 0x05#32 | .vehicle => 0x15#32) ∧
    (n % 8 ≠ 0 ∨ 256 < n → exec (.decbuf ksel) s = .next { s with err := .preconditionViolation, valid := false }) ∧
    (n % 8 = 0 → n ≤ 256 → ∃ m, exec (.decbuf ksel) s = .next { s with buf := m, err := .none, valid := false } ∧
      (∀ b, b < n / 8 → blockOf (Memory.byte s.resets m) b = decryptBlock k (blockOf s.byte b)) ∧
      ∀ i, n ≤ i → Memory.byte s.resets m i = s.byte i)

/-- R79, R87: ENCBUF then DECBUF, and DECBUF then ENCBUF, by the same key and length, restore every byte of BUF. -/
def Obligations.BufferCipherRoundTripRestoresTheBuffer : Prop :=
  ∀ (ksel : Role) (s : State), s.len.toNat % 8 = 0 → s.len.toNat ≤ 256 →
    (∃ t u, exec (.encbuf ksel) s = .next t ∧ exec (.decbuf ksel) t = .next u ∧ ∀ i, u.byte i = s.byte i) ∧
    (∃ t u, exec (.decbuf ksel) s = .next t ∧ exec (.encbuf ksel) t = .next u ∧ ∀ i, u.byte i = s.byte i)

/-- R83, R100: a block's result depends on that block's bytes and the key alone, wherever the block stands and whatever the other
bytes are, and different blocks have different results: no chaining, and a change in one block changes that block and no
other. -/
def Obligations.BlocksAreCipheredIndependently : Prop :=
  ∀ (ksel : Role) (s s' : State) (b c : Nat), s.keyOf ksel = s'.keyOf ksel →
    s.len.toNat % 8 = 0 → s.len.toNat ≤ 256 → 8 * b < s.len.toNat →
    s'.len.toNat % 8 = 0 → s'.len.toNat ≤ 256 → 8 * c < s'.len.toNat →
    (∃ t t', exec (.encbuf ksel) s = .next t ∧ exec (.encbuf ksel) s' = .next t' ∧
      (blockOf t.byte b = blockOf t'.byte c ↔ blockOf s.byte b = blockOf s'.byte c)) ∧
    (∃ t t', exec (.decbuf ksel) s = .next t ∧ exec (.decbuf ksel) s' = .next t' ∧
      (blockOf t.byte b = blockOf t'.byte c ↔ blockOf s.byte b = blockOf s'.byte c))

/-! ## Packet Codec -/

/-- R88, R89, R90, R91: both packet layouts are packed from offset 0 to 32 bytes, their reserved regions are [24, 30) and [8, 30),
and their last field is the u16 checksum at offset 30. -/
def Obligations.PacketLayoutsArePackedAndThirtyTwoBytes : Prop :=
  (∀ pt, plen pt = 32 ∧ layoutWf (layout pt) = true ∧ layoutBytes (layout pt) = 32 ∧
    (layout pt).getLast? = some ⟨30, "crc16", .u16⟩) ∧
  (∃ f ∈ layout .telemetry, f.offset = 24 ∧ f.type = .reserved 6) ∧ ∃ f ∈ layout .command, f.offset = 8 ∧ f.type = .reserved 22

/-- R96, with its two words (and R94, R95): SEND zeroes the reserved region, stores the checksum of the 32 bytes with a zero
checksum field, encrypts the four blocks with the peer's key, sets CRC to the checksum and LEN to 32, and leaves BUF[32..256)
and all other state. -/
def Obligations.SendPreparesTheFrame : Prop :=
  ∀ (pt : PacketType) (s : State),
    let r := match pt with | .telemetry => 24 | .command => 8
    let k := match s.role with | .controller => s.keyV | .vehicle => s.keyC
    (∀ w : Word, decode w = .command (.send pt) ↔ w = match pt with | .telemetry => 0x06#32 | .command => 0x26#32) ∧
    ∃ m, exec (.send pt) s = .next { s with
        buf := m, crc := checksum32 (zeroedByte r s.byte), len := 32#16, err := .none, valid := false } ∧
      (∀ b, b < 4 → blockOf (Memory.byte s.resets m) b = encryptBlock k (blockOf (sentByte r s.byte) b)) ∧
      ∀ i, 32 ≤ i → Memory.byte s.resets m i = s.byte i

/-- R96, R119: what SEND leaves in BUF[0..32) and CRC does not depend on what stood in the reserved region or the checksum field,
nor in the rest of BUF. -/
def Obligations.SendDoesNotReadReservedBytes : Prop :=
  ∀ (pt : PacketType) (s s' : State), s.role = s'.role → s.keyC = s'.keyC → s.keyV = s'.keyV →
    (∀ i, i < reservedStart pt → s.byte i = s'.byte i) →
    ∃ t t', exec (.send pt) s = .next t ∧ exec (.send pt) s' = .next t' ∧ t.crc = t'.crc ∧ ∀ i, i < 32 → t.byte i = t'.byte i

/-- R102 (with R97): a RECV of a frame whose length LEN is not 32 records FRAME_LENGTH_MISMATCH and changes nothing else. -/
def Obligations.RecvRejectsAWrongLength : Prop :=
  ∀ (pt : PacketType) (s : State), s.len ≠ 32#16 →
    exec (.recv pt) s = .next { s with err := .frameLengthMismatch, valid := false }

/-- R97 (with R94, R95): at LEN = 32, RECV decrypts the four blocks with its own key, sets RXCRC to the embedded and CRC to the
recomputed checksum, and VALID exactly when they are equal; BUF[0..32) then holds the decrypted packet. After a failed
comparison nothing is said of BUF[0..32) (D36, entry 12). BUF[32..256) and all other state stay. -/
def Obligations.RecvValidatesTheFrame : Prop :=
  ∀ (pt : PacketType) (s : State), s.len = 32#16 →
    let k := match s.role with | .controller => s.keyC | .vehicle => s.keyV
    let q := decryptedByte k s.byte
    let c := checksum32 (zeroedByte 30 q)
    let e := q 31 ++ q 30
    ∃ m, exec (.recv pt) s = .next { s with
        buf := m, crc := c, rxcrc := e, err := if c = e then .none else .integrityCheckFailed, valid := c == e } ∧
      (c = e → ∀ i, i < 32 → Memory.byte s.resets m i = q i) ∧
      ∀ i, 32 ≤ i → Memory.byte s.resets m i = s.byte i

/-- R98, the spec's own inference from R79, R95, R96 and R97: the frame SEND leaves, received at an endpoint whose own key is the
sender's peer's key, with LEN 32, is validated, and gives the packet SEND started from with its reserved bytes zeroed and its
checksum field set. -/
def Obligations.PacketRoundTrip : Prop :=
  ∀ (pt : PacketType) (s r : State), s.keyOf (peer s.role) = r.keyOf r.role → r.len = 32#16 →
    ∃ t, exec (.send pt) s = .next t ∧
      ((∀ i, i < 32 → r.byte i = t.byte i) →
        ∃ u, exec (.recv pt) r = .next u ∧ u.err = .none ∧ u.valid = true ∧ u.crc = t.crc ∧ u.rxcrc = t.crc ∧
          ∀ i, i < 32 → u.byte i = sentByte (reservedStart pt) s.byte i)

/-- R97, D21: both packet types are 32 bytes and RECV uses its packet type for the length alone, so it cannot tell them apart. -/
def Obligations.RecvDoesNotTellPacketTypesApart : Prop :=
  ∀ s : State, exec (.recv .telemetry) s = exec (.recv .command) s
end

