-- ==== Sys2Proof/Laws/State.lean ====
section
/-! SUPPORT. One lemma per field per update of State, so that no proof unfolds a record update. -/

namespace Sys2Proof.Machine

@[simp] theorem State.complete_eq (s : State) : s.complete = s.setStatus .none false := rfl
@[simp] theorem State.completeValid_eq (s : State) : s.completeValid = s.setStatus .none true := rfl
@[simp] theorem State.raise_eq (s : State) (e : ErrCode) : s.raise e = s.setStatus e false := rfl

@[simp] theorem State.setBuf_role (s : State) (m : Memory) : (s.setBuf m).role = s.role := rfl
@[simp] theorem State.setBuf_klock (s : State) (m : Memory) : (s.setBuf m).klock = s.klock := rfl
@[simp] theorem State.setBuf_err (s : State) (m : Memory) : (s.setBuf m).err = s.err := rfl
@[simp] theorem State.setBuf_valid (s : State) (m : Memory) : (s.setBuf m).valid = s.valid := rfl
@[simp] theorem State.setBuf_len (s : State) (m : Memory) : (s.setBuf m).len = s.len := rfl
@[simp] theorem State.setBuf_crc (s : State) (m : Memory) : (s.setBuf m).crc = s.crc := rfl
@[simp] theorem State.setBuf_rxcrc (s : State) (m : Memory) : (s.setBuf m).rxcrc = s.rxcrc := rfl
@[simp] theorem State.setBuf_v0 (s : State) (m : Memory) : (s.setBuf m).v0 = s.v0 := rfl
@[simp] theorem State.setBuf_v1 (s : State) (m : Memory) : (s.setBuf m).v1 = s.v1 := rfl
@[simp] theorem State.setBuf_keyC (s : State) (m : Memory) : (s.setBuf m).keyC = s.keyC := rfl
@[simp] theorem State.setBuf_keyV (s : State) (m : Memory) : (s.setBuf m).keyV = s.keyV := rfl
@[simp] theorem State.setBuf_buf (s : State) (m : Memory) : (s.setBuf m).buf = m := rfl
@[simp] theorem State.setBuf_resets (s : State) (m : Memory) : (s.setBuf m).resets = s.resets := rfl
@[simp] theorem State.setBuf_pending (s : State) (m : Memory) : (s.setBuf m).pending = s.pending := rfl
@[simp] theorem State.setBuf_responses (s : State) (m : Memory) : (s.setBuf m).responses = s.responses := rfl
@[simp] theorem State.setBuf_byte (s : State) (m : Memory) (i : Nat) : (s.setBuf m).byte i = Memory.byte s.resets m i := rfl
@[simp] theorem State.setBuf_keyOf (s : State) (m : Memory) (r : Role) : (s.setBuf m).keyOf r = s.keyOf r := by cases r <;> rfl
@[simp] theorem State.setBuf_outKey (s : State) (m : Memory) : (s.setBuf m).outKey = s.outKey := by simp [State.outKey]
@[simp] theorem State.setBuf_inKey (s : State) (m : Memory) : (s.setBuf m).inKey = s.inKey := by simp [State.inKey]

@[simp] theorem State.setCrc_role (s : State) (c : Half) : (s.setCrc c).role = s.role := rfl
@[simp] theorem State.setCrc_klock (s : State) (c : Half) : (s.setCrc c).klock = s.klock := rfl
@[simp] theorem State.setCrc_err (s : State) (c : Half) : (s.setCrc c).err = s.err := rfl
@[simp] theorem State.setCrc_valid (s : State) (c : Half) : (s.setCrc c).valid = s.valid := rfl
@[simp] theorem State.setCrc_len (s : State) (c : Half) : (s.setCrc c).len = s.len := rfl
@[simp] theorem State.setCrc_crc (s : State) (c : Half) : (s.setCrc c).crc = c := rfl
@[simp] theorem State.setCrc_rxcrc (s : State) (c : Half) : (s.setCrc c).rxcrc = s.rxcrc := rfl
@[simp] theorem State.setCrc_v0 (s : State) (c : Half) : (s.setCrc c).v0 = s.v0 := rfl
@[simp] theorem State.setCrc_v1 (s : State) (c : Half) : (s.setCrc c).v1 = s.v1 := rfl
@[simp] theorem State.setCrc_keyC (s : State) (c : Half) : (s.setCrc c).keyC = s.keyC := rfl
@[simp] theorem State.setCrc_keyV (s : State) (c : Half) : (s.setCrc c).keyV = s.keyV := rfl
@[simp] theorem State.setCrc_buf (s : State) (c : Half) : (s.setCrc c).buf = s.buf := rfl
@[simp] theorem State.setCrc_resets (s : State) (c : Half) : (s.setCrc c).resets = s.resets := rfl
@[simp] theorem State.setCrc_pending (s : State) (c : Half) : (s.setCrc c).pending = s.pending := rfl
@[simp] theorem State.setCrc_responses (s : State) (c : Half) : (s.setCrc c).responses = s.responses := rfl
@[simp] theorem State.setCrc_byte (s : State) (c : Half) (i : Nat) : (s.setCrc c).byte i = s.byte i := rfl
@[simp] theorem State.setCrc_keyOf (s : State) (c : Half) (r : Role) : (s.setCrc c).keyOf r = s.keyOf r := by cases r <;> rfl
@[simp] theorem State.setCrc_outKey (s : State) (c : Half) : (s.setCrc c).outKey = s.outKey := by simp [State.outKey]
@[simp] theorem State.setCrc_inKey (s : State) (c : Half) : (s.setCrc c).inKey = s.inKey := by simp [State.inKey]

@[simp] theorem State.setRxcrc_role (s : State) (c : Half) : (s.setRxcrc c).role = s.role := rfl
@[simp] theorem State.setRxcrc_klock (s : State) (c : Half) : (s.setRxcrc c).klock = s.klock := rfl
@[simp] theorem State.setRxcrc_err (s : State) (c : Half) : (s.setRxcrc c).err = s.err := rfl
@[simp] theorem State.setRxcrc_valid (s : State) (c : Half) : (s.setRxcrc c).valid = s.valid := rfl
@[simp] theorem State.setRxcrc_len (s : State) (c : Half) : (s.setRxcrc c).len = s.len := rfl
@[simp] theorem State.setRxcrc_crc (s : State) (c : Half) : (s.setRxcrc c).crc = s.crc := rfl
@[simp] theorem State.setRxcrc_rxcrc (s : State) (c : Half) : (s.setRxcrc c).rxcrc = c := rfl
@[simp] theorem State.setRxcrc_v0 (s : State) (c : Half) : (s.setRxcrc c).v0 = s.v0 := rfl
@[simp] theorem State.setRxcrc_v1 (s : State) (c : Half) : (s.setRxcrc c).v1 = s.v1 := rfl
@[simp] theorem State.setRxcrc_keyC (s : State) (c : Half) : (s.setRxcrc c).keyC = s.keyC := rfl
@[simp] theorem State.setRxcrc_keyV (s : State) (c : Half) : (s.setRxcrc c).keyV = s.keyV := rfl
@[simp] theorem State.setRxcrc_buf (s : State) (c : Half) : (s.setRxcrc c).buf = s.buf := rfl
@[simp] theorem State.setRxcrc_resets (s : State) (c : Half) : (s.setRxcrc c).resets = s.resets := rfl
@[simp] theorem State.setRxcrc_pending (s : State) (c : Half) : (s.setRxcrc c).pending = s.pending := rfl
@[simp] theorem State.setRxcrc_responses (s : State) (c : Half) : (s.setRxcrc c).responses = s.responses := rfl
@[simp] theorem State.setRxcrc_byte (s : State) (c : Half) (i : Nat) : (s.setRxcrc c).byte i = s.byte i := rfl
@[simp] theorem State.setRxcrc_keyOf (s : State) (c : Half) (r : Role) : (s.setRxcrc c).keyOf r = s.keyOf r := by cases r <;> rfl
@[simp] theorem State.setRxcrc_outKey (s : State) (c : Half) : (s.setRxcrc c).outKey = s.outKey := by simp [State.outKey]
@[simp] theorem State.setRxcrc_inKey (s : State) (c : Half) : (s.setRxcrc c).inKey = s.inKey := by simp [State.inKey]

@[simp] theorem State.setLen_role (s : State) (n : Half) : (s.setLen n).role = s.role := rfl
@[simp] theorem State.setLen_klock (s : State) (n : Half) : (s.setLen n).klock = s.klock := rfl
@[simp] theorem State.setLen_err (s : State) (n : Half) : (s.setLen n).err = s.err := rfl
@[simp] theorem State.setLen_valid (s : State) (n : Half) : (s.setLen n).valid = s.valid := rfl
@[simp] theorem State.setLen_len (s : State) (n : Half) : (s.setLen n).len = n := rfl
@[simp] theorem State.setLen_crc (s : State) (n : Half) : (s.setLen n).crc = s.crc := rfl
@[simp] theorem State.setLen_rxcrc (s : State) (n : Half) : (s.setLen n).rxcrc = s.rxcrc := rfl
@[simp] theorem State.setLen_v0 (s : State) (n : Half) : (s.setLen n).v0 = s.v0 := rfl
@[simp] theorem State.setLen_v1 (s : State) (n : Half) : (s.setLen n).v1 = s.v1 := rfl
@[simp] theorem State.setLen_keyC (s : State) (n : Half) : (s.setLen n).keyC = s.keyC := rfl
@[simp] theorem State.setLen_keyV (s : State) (n : Half) : (s.setLen n).keyV = s.keyV := rfl
@[simp] theorem State.setLen_buf (s : State) (n : Half) : (s.setLen n).buf = s.buf := rfl
@[simp] theorem State.setLen_resets (s : State) (n : Half) : (s.setLen n).resets = s.resets := rfl
@[simp] theorem State.setLen_pending (s : State) (n : Half) : (s.setLen n).pending = s.pending := rfl
@[simp] theorem State.setLen_responses (s : State) (n : Half) : (s.setLen n).responses = s.responses := rfl
@[simp] theorem State.setLen_byte (s : State) (n : Half) (i : Nat) : (s.setLen n).byte i = s.byte i := rfl
@[simp] theorem State.setLen_keyOf (s : State) (n : Half) (r : Role) : (s.setLen n).keyOf r = s.keyOf r := by cases r <;> rfl
@[simp] theorem State.setLen_outKey (s : State) (n : Half) : (s.setLen n).outKey = s.outKey := by simp [State.outKey]
@[simp] theorem State.setLen_inKey (s : State) (n : Half) : (s.setLen n).inKey = s.inKey := by simp [State.inKey]

@[simp] theorem State.setV_role (s : State) (b : Block) : (s.setV b).role = s.role := rfl
@[simp] theorem State.setV_klock (s : State) (b : Block) : (s.setV b).klock = s.klock := rfl
@[simp] theorem State.setV_err (s : State) (b : Block) : (s.setV b).err = s.err := rfl
@[simp] theorem State.setV_valid (s : State) (b : Block) : (s.setV b).valid = s.valid := rfl
@[simp] theorem State.setV_len (s : State) (b : Block) : (s.setV b).len = s.len := rfl
@[simp] theorem State.setV_crc (s : State) (b : Block) : (s.setV b).crc = s.crc := rfl
@[simp] theorem State.setV_rxcrc (s : State) (b : Block) : (s.setV b).rxcrc = s.rxcrc := rfl
@[simp] theorem State.setV_v0 (s : State) (b : Block) : (s.setV b).v0 = b.v0 := rfl
@[simp] theorem State.setV_v1 (s : State) (b : Block) : (s.setV b).v1 = b.v1 := rfl
@[simp] theorem State.setV_keyC (s : State) (b : Block) : (s.setV b).keyC = s.keyC := rfl
@[simp] theorem State.setV_keyV (s : State) (b : Block) : (s.setV b).keyV = s.keyV := rfl
@[simp] theorem State.setV_buf (s : State) (b : Block) : (s.setV b).buf = s.buf := rfl
@[simp] theorem State.setV_resets (s : State) (b : Block) : (s.setV b).resets = s.resets := rfl
@[simp] theorem State.setV_pending (s : State) (b : Block) : (s.setV b).pending = s.pending := rfl
@[simp] theorem State.setV_responses (s : State) (b : Block) : (s.setV b).responses = s.responses := rfl
@[simp] theorem State.setV_byte (s : State) (b : Block) (i : Nat) : (s.setV b).byte i = s.byte i := rfl
@[simp] theorem State.setV_keyOf (s : State) (b : Block) (r : Role) : (s.setV b).keyOf r = s.keyOf r := by cases r <;> rfl
@[simp] theorem State.setV_outKey (s : State) (b : Block) : (s.setV b).outKey = s.outKey := by simp [State.outKey]
@[simp] theorem State.setV_inKey (s : State) (b : Block) : (s.setV b).inKey = s.inKey := by simp [State.inKey]

@[simp] theorem State.setStatus_role (s : State) (e : ErrCode) (v : Bool) : (s.setStatus e v).role = s.role := rfl
@[simp] theorem State.setStatus_klock (s : State) (e : ErrCode) (v : Bool) : (s.setStatus e v).klock = s.klock := rfl
@[simp] theorem State.setStatus_err (s : State) (e : ErrCode) (v : Bool) : (s.setStatus e v).err = e := rfl
@[simp] theorem State.setStatus_valid (s : State) (e : ErrCode) (v : Bool) : (s.setStatus e v).valid = v := rfl
@[simp] theorem State.setStatus_len (s : State) (e : ErrCode) (v : Bool) : (s.setStatus e v).len = s.len := rfl
@[simp] theorem State.setStatus_crc (s : State) (e : ErrCode) (v : Bool) : (s.setStatus e v).crc = s.crc := rfl
@[simp] theorem State.setStatus_rxcrc (s : State) (e : ErrCode) (v : Bool) : (s.setStatus e v).rxcrc = s.rxcrc := rfl
@[simp] theorem State.setStatus_v0 (s : State) (e : ErrCode) (v : Bool) : (s.setStatus e v).v0 = s.v0 := rfl
@[simp] theorem State.setStatus_v1 (s : State) (e : ErrCode) (v : Bool) : (s.setStatus e v).v1 = s.v1 := rfl
@[simp] theorem State.setStatus_keyC (s : State) (e : ErrCode) (v : Bool) : (s.setStatus e v).keyC = s.keyC := rfl
@[simp] theorem State.setStatus_keyV (s : State) (e : ErrCode) (v : Bool) : (s.setStatus e v).keyV = s.keyV := rfl
@[simp] theorem State.setStatus_buf (s : State) (e : ErrCode) (v : Bool) : (s.setStatus e v).buf = s.buf := rfl
@[simp] theorem State.setStatus_resets (s : State) (e : ErrCode) (v : Bool) : (s.setStatus e v).resets = s.resets := rfl
@[simp] theorem State.setStatus_pending (s : State) (e : ErrCode) (v : Bool) : (s.setStatus e v).pending = s.pending := rfl
@[simp] theorem State.setStatus_responses (s : State) (e : ErrCode) (v : Bool) : (s.setStatus e v).responses = s.responses := rfl
@[simp] theorem State.setStatus_byte (s : State) (e : ErrCode) (v : Bool) (i : Nat) : (s.setStatus e v).byte i = s.byte i := rfl
@[simp] theorem State.setStatus_keyOf (s : State) (e : ErrCode) (v : Bool) (r : Role) : (s.setStatus e v).keyOf r = s.keyOf r := by cases r <;> rfl
@[simp] theorem State.setStatus_outKey (s : State) (e : ErrCode) (v : Bool) : (s.setStatus e v).outKey = s.outKey := by simp [State.outKey]
@[simp] theorem State.setStatus_inKey (s : State) (e : ErrCode) (v : Bool) : (s.setStatus e v).inKey = s.inKey := by simp [State.inKey]

@[simp] theorem State.respond_role (s : State) (r : Response) : (s.respond r).role = s.role := rfl
@[simp] theorem State.respond_klock (s : State) (r : Response) : (s.respond r).klock = s.klock := rfl
@[simp] theorem State.respond_err (s : State) (r : Response) : (s.respond r).err = s.err := rfl
@[simp] theorem State.respond_valid (s : State) (r : Response) : (s.respond r).valid = s.valid := rfl
@[simp] theorem State.respond_len (s : State) (r : Response) : (s.respond r).len = s.len := rfl
@[simp] theorem State.respond_crc (s : State) (r : Response) : (s.respond r).crc = s.crc := rfl
@[simp] theorem State.respond_rxcrc (s : State) (r : Response) : (s.respond r).rxcrc = s.rxcrc := rfl
@[simp] theorem State.respond_v0 (s : State) (r : Response) : (s.respond r).v0 = s.v0 := rfl
@[simp] theorem State.respond_v1 (s : State) (r : Response) : (s.respond r).v1 = s.v1 := rfl
@[simp] theorem State.respond_keyC (s : State) (r : Response) : (s.respond r).keyC = s.keyC := rfl
@[simp] theorem State.respond_keyV (s : State) (r : Response) : (s.respond r).keyV = s.keyV := rfl
@[simp] theorem State.respond_buf (s : State) (r : Response) : (s.respond r).buf = s.buf := rfl
@[simp] theorem State.respond_resets (s : State) (r : Response) : (s.respond r).resets = s.resets := rfl
@[simp] theorem State.respond_pending (s : State) (r : Response) : (s.respond r).pending = s.pending := rfl
@[simp] theorem State.respond_responses (s : State) (r : Response) : (s.respond r).responses = r :: s.responses := rfl
@[simp] theorem State.respond_byte (s : State) (r : Response) (i : Nat) : (s.respond r).byte i = s.byte i := rfl
@[simp] theorem State.respond_keyOf (s : State) (r : Response) (k : Role) : (s.respond r).keyOf k = s.keyOf k := by cases k <;> rfl
@[simp] theorem State.respond_outKey (s : State) (r : Response) : (s.respond r).outKey = s.outKey := by simp [State.outKey]
@[simp] theorem State.respond_inKey (s : State) (r : Response) : (s.respond r).inKey = s.inKey := by simp [State.inKey]

@[simp] theorem State.setPending_role (s : State) (p : List Input) : (s.setPending p).role = s.role := rfl
@[simp] theorem State.setPending_klock (s : State) (p : List Input) : (s.setPending p).klock = s.klock := rfl
@[simp] theorem State.setPending_err (s : State) (p : List Input) : (s.setPending p).err = s.err := rfl
@[simp] theorem State.setPending_valid (s : State) (p : List Input) : (s.setPending p).valid = s.valid := rfl
@[simp] theorem State.setPending_len (s : State) (p : List Input) : (s.setPending p).len = s.len := rfl
@[simp] theorem State.setPending_crc (s : State) (p : List Input) : (s.setPending p).crc = s.crc := rfl
@[simp] theorem State.setPending_rxcrc (s : State) (p : List Input) : (s.setPending p).rxcrc = s.rxcrc := rfl
@[simp] theorem State.setPending_v0 (s : State) (p : List Input) : (s.setPending p).v0 = s.v0 := rfl
@[simp] theorem State.setPending_v1 (s : State) (p : List Input) : (s.setPending p).v1 = s.v1 := rfl
@[simp] theorem State.setPending_keyC (s : State) (p : List Input) : (s.setPending p).keyC = s.keyC := rfl
@[simp] theorem State.setPending_keyV (s : State) (p : List Input) : (s.setPending p).keyV = s.keyV := rfl
@[simp] theorem State.setPending_buf (s : State) (p : List Input) : (s.setPending p).buf = s.buf := rfl
@[simp] theorem State.setPending_resets (s : State) (p : List Input) : (s.setPending p).resets = s.resets := rfl
@[simp] theorem State.setPending_pending (s : State) (p : List Input) : (s.setPending p).pending = p := rfl
@[simp] theorem State.setPending_responses (s : State) (p : List Input) : (s.setPending p).responses = s.responses := rfl
@[simp] theorem State.setPending_byte (s : State) (p : List Input) (i : Nat) : (s.setPending p).byte i = s.byte i := rfl
@[simp] theorem State.setPending_keyOf (s : State) (p : List Input) (r : Role) : (s.setPending p).keyOf r = s.keyOf r := by cases r <;> rfl
@[simp] theorem State.setPending_outKey (s : State) (p : List Input) : (s.setPending p).outKey = s.outKey := by simp [State.outKey]
@[simp] theorem State.setPending_inKey (s : State) (p : List Input) : (s.setPending p).inKey = s.inKey := by simp [State.inKey]

end Sys2Proof.Machine
end

