-- ==== Sys2Proof/Laws/Checksum.lean ====
section
/-! SUPPORT. crc16 (R69): its recursion, and that a shift step and a byte step lose nothing. -/

namespace Sys2Proof.Machine

@[simp] theorem crc16_nil : crc16 [] = 0xFFFF#16 := rfl

/-- crc16 after one more byte (R69, R70). -/
theorem crc16_append_singleton (bs : List Byte) (b : Byte) : crc16 (bs ++ [b]) = crcByte (crc16 bs) b := by
  simp [crc16, List.foldl_append]

/-- One shift step. -/
theorem crcShift_succ (n : Nat) (r : Half) : crcShift (n + 1) r = crcShift n (crcShift 1 r) := by
  simp only [crcShift]
  split <;> rfl

/-- Bit 0 of a shifted register tells which branch the step took. -/
theorem crcShift_one_bit_zero (r : Half) : (crcShift 1 r).getLsbD 0 = r.getLsbD 15 := by
  simp only [crcShift, Config.poly]
  split
  · simp_all
  · simp_all

/-- A shift step is injective, because the polynomial is odd. -/
theorem crcShift_one_injective {r r' : Half} (h : crcShift 1 r = crcShift 1 r') : r = r' := by
  have top : r.getLsbD 15 = r'.getLsbD 15 := by rw [← crcShift_one_bit_zero, ← crcShift_one_bit_zero, h]
  have shl : r <<< 1 = r' <<< 1 := by
    simp only [crcShift, ← top] at h
    split at h
    · exact (BitVec.xor_left_inj _).1 h
    · exact h
  ext i hi
  by_cases h15 : i = 15
  · subst h15; simpa using top
  · have := congrArg (fun x : Half => x.getLsbD (i + 1)) shl
    simpa [show i + 1 < 16 by omega] using this

theorem crcShift_injective (n : Nat) {r r' : Half} (h : crcShift n r = crcShift n r') : r = r' := by
  induction n generalizing r r' with
  | zero => exact h
  | succ n ih => rw [crcShift_succ n r, crcShift_succ n r'] at h; exact crcShift_one_injective (ih h)

/-- A byte step is injective in the register. -/
theorem crcByte_injective_reg {r r' : Half} {b : Byte} (h : crcByte r b = crcByte r' b) : r = r' := by
  have := crcShift_injective 8 h
  exact (BitVec.xor_left_inj _).1 this

/-- A byte step is injective in the byte. -/
theorem crcByte_injective_byte {r : Half} {b b' : Byte} (h : crcByte r b = crcByte r b') : b = b' := by
  have h1 : b.setWidth 16 <<< 8 = b'.setWidth 16 <<< 8 := (BitVec.xor_right_inj _).1 (crcShift_injective 8 h)
  ext i hi
  have := congrArg (fun x : Half => x.getLsbD (i + 8)) h1
  simpa [show i + 8 < 16 by omega, hi] using this

end Sys2Proof.Machine
end

