-- ==== Sys2Proof/Laws/Memory.lean ====
section
/-! SUPPORT. BUF: every operation keeps the canonical form (entry 4), and what each byte reads as after each operation. -/

namespace Sys2Proof.Machine

theorem bufSize_eq : Config.bufSize = 256 := rfl

/-! ### The canonical form -/

theorem wfFrom_cons (lo i : Nat) (v : Byte) (m : Memory) :
    Memory.wfFrom lo ((i, v) :: m) = true ↔ lo ≤ i ∧ i < 256 ∧ Memory.wfFrom (i + 1) m = true := by
  simp only [Memory.wfFrom, Bool.and_eq_true, decide_eq_true_eq, and_assoc]
  rw [bufSize_eq]

theorem insert_wfFrom {m : Memory} {lo i : Nat} (v : Byte) (hi : i < 256) (hlo : lo ≤ i) (hm : Memory.wfFrom lo m = true) :
    Memory.wfFrom lo (Memory.insert m i v) = true := by
  induction m generalizing lo with
  | nil => exact (wfFrom_cons _ _ _ _).2 ⟨hlo, hi, rfl⟩
  | cons c m ih =>
    obtain ⟨j, u⟩ := c
    obtain ⟨h1, h2, h3⟩ := (wfFrom_cons _ _ _ _).1 hm
    simp only [Memory.insert]
    split
    · exact (wfFrom_cons _ _ _ _).2 ⟨hlo, hi, (wfFrom_cons _ _ _ _).2 ⟨by omega, h2, h3⟩⟩
    · split
      · subst_vars
        exact (wfFrom_cons _ _ _ _).2 ⟨hlo, hi, h3⟩
      · exact (wfFrom_cons _ _ _ _).2 ⟨h1, h2, ih (by omega) h3⟩

theorem put_wf {m : Memory} (i : Nat) (v : Byte) (hm : Memory.wf m = true) : Memory.wf (Memory.put m i v) = true := by
  unfold Memory.put
  split
  · exact insert_wfFrom v ‹_› (Nat.zero_le _) hm
  · exact hm

theorem write16_wf {m : Memory} (off : Nat) (v : Half) (hm : Memory.wf m = true) : Memory.wf (Memory.write16 m off v) = true :=
  put_wf _ _ (put_wf _ _ hm)

theorem write32_wf {m : Memory} (off : Nat) (v : Word) (hm : Memory.wf m = true) : Memory.wf (Memory.write32 m off v) = true :=
  put_wf _ _ (put_wf _ _ (put_wf _ _ (put_wf _ _ hm)))

/-- Folding operations that keep a property keeps it. -/
theorem foldl_keeps {α β : Type} (P : β → Prop) (f : β → α → β) (hf : ∀ b a, P b → P (f b a)) (l : List α) (b : β) (hb : P b) :
    P (l.foldl f b) := by
  induction l generalizing b with
  | nil => exact hb
  | cons a l ih => exact ih _ (hf _ _ hb)

theorem zero_wf {m : Memory} (a n : Nat) (hm : Memory.wf m = true) : Memory.wf (Memory.zero m a n) = true :=
  foldl_keeps (fun m => Memory.wf m = true) _ (fun _ _ h => put_wf _ _ h) _ _ hm

theorem setBlock_wf {m : Memory} (b : Nat) (x : Block) (hm : Memory.wf m = true) : Memory.wf (Memory.setBlock m b x) = true :=
  write32_wf _ _ (write32_wf _ _ hm)

theorem crypt_wf {m : Memory} (d : Nat) (f : Block → Block) (n : Nat) (hm : Memory.wf m = true) :
    Memory.wf (Memory.crypt d f m n) = true :=
  foldl_keeps (fun m => Memory.wf m = true) _ (fun _ _ h => setBlock_wf _ _ h) _ _ hm

/-! ### Reading after writing -/

theorem find_insert (m : Memory) (i j : Nat) (v : Byte) :
    Memory.find (Memory.insert m i v) j = if j = i then some v else Memory.find m j := by
  induction m with
  | nil => simp [Memory.insert, Memory.find]
  | cons c m ih =>
    obtain ⟨k, u⟩ := c
    simp only [Memory.insert]
    split
    · simp [Memory.find]
    · split
      · subst_vars; simp only [Memory.find]; split <;> rfl
      · simp only [Memory.find, ih]
        split <;> split <;> simp_all

/-- A write of one byte: that byte reads as written, every other as before. -/
theorem byte_put (d : Nat) (m : Memory) (i j : Nat) (v : Byte) (hi : i < 256) :
    Memory.byte d (Memory.put m i v) j = if j = i then v else Memory.byte d m j := by
  unfold Memory.put Memory.byte
  rw [if_pos (show i < Config.bufSize from hi), find_insert]
  split <;> rfl

theorem insert_insert (m : Memory) (i : Nat) (v w : Byte) :
    Memory.insert (Memory.insert m i v) i w = Memory.insert m i w := by
  induction m with
  | nil => simp [Memory.insert]
  | cons c m ih =>
    obtain ⟨k, u⟩ := c
    simp only [Memory.insert]
    split
    · simp [Memory.insert]
    · split
      · simp [Memory.insert]
      · simp only [Memory.insert, ih]; split <;> simp_all

theorem insert_comm (m : Memory) (i j : Nat) (v w : Byte) (h : i ≠ j) :
    Memory.insert (Memory.insert m i v) j w = Memory.insert (Memory.insert m j w) i v := by
  induction m with
  | nil =>
    simp only [Memory.insert]
    rcases Nat.lt_or_gt_of_ne h with h' | h'
    · rw [if_neg (by omega), if_neg (by omega), if_pos h']
    · rw [if_pos h', if_neg (by omega), if_neg (by omega)]
  | cons c m ih =>
    obtain ⟨k, u⟩ := c
    simp only [Memory.insert]
    rcases lt_trichotomy i k with hi | hi | hi <;> rcases lt_trichotomy j k with hj | hj | hj <;>
      rcases Nat.lt_or_gt_of_ne h with h' | h' <;>
      simp [Memory.insert, *, Nat.lt_asymm, ne_of_lt, ne_of_gt] <;> omega

theorem byte_write16 (d : Nat) (m : Memory) (off j : Nat) (v : Half) (h : off + 2 ≤ 256) :
    Memory.byte d (Memory.write16 m off v) j =
      if off ≤ j ∧ j < off + 2 then v.extractLsb' (8 * (j - off)) 8 else Memory.byte d m j := by
  unfold Memory.write16
  rw [byte_put _ _ _ _ _ (by omega), byte_put _ _ _ _ _ (by omega)]
  by_cases h1 : j = off + 1
  · subst h1; simp
  · by_cases h0 : j = off
    · subst h0; simp
    · rw [if_neg h1, if_neg h0, if_neg (by omega)]

theorem byte_write32 (d : Nat) (m : Memory) (off j : Nat) (v : Word) (h : off + 4 ≤ 256) :
    Memory.byte d (Memory.write32 m off v) j =
      if off ≤ j ∧ j < off + 4 then v.extractLsb' (8 * (j - off)) 8 else Memory.byte d m j := by
  unfold Memory.write32
  rw [byte_put _ _ _ _ _ (by omega), byte_put _ _ _ _ _ (by omega), byte_put _ _ _ _ _ (by omega), byte_put _ _ _ _ _ (by omega)]
  by_cases h3 : j = off + 3
  · subst h3; simp
  by_cases h2 : j = off + 2
  · subst h2; simp
  by_cases h1 : j = off + 1
  · subst h1; simp
  by_cases h0 : j = off
  · subst h0; simp
  rw [if_neg h3, if_neg h2, if_neg h1, if_neg h0, if_neg (by omega)]

theorem byte_zero (d : Nat) (m : Memory) (a n j : Nat) (h : a + n ≤ 256) :
    Memory.byte d (Memory.zero m a n) j = if a ≤ j ∧ j < a + n then 0#8 else Memory.byte d m j := by
  induction n with
  | zero => rw [if_neg (by omega)]; rfl
  | succ n ih =>
    have hs : Memory.zero m a (n + 1) = Memory.put (Memory.zero m a n) (a + n) 0#8 := by
      simp [Memory.zero, List.range_succ]
    rw [hs, byte_put _ _ _ _ _ (by omega), ih (by omega)]
    by_cases hj : j = a + n
    · subst hj; simp
    · rw [if_neg hj]
      by_cases h1 : a ≤ j ∧ j < a + n
      · rw [if_pos h1, if_pos (by omega)]
      · rw [if_neg h1, if_neg (by omega)]

end Sys2Proof.Machine
end

