-- ==== Sys2Proof/Laws/Cipher.lean ====
section
/-! SUPPORT. The cipher on BUF: what `Memory.setBlock` and `Memory.crypt` do to each byte and each block. -/

namespace Sys2Proof.Machine

/-- A word put together again from its four bytes. -/
theorem word_of_bytes (v : Word) :
    v.extractLsb' 24 8 ++ v.extractLsb' 16 8 ++ v.extractLsb' 8 8 ++ v.extractLsb' 0 8 = v := by
  ext i hi
  simp only [BitVec.getElem_append, BitVec.getElem_extractLsb', BitVec.getLsbD_eq_getElem?_getD]
  split
  · simp [hi]
  · split
    · rw [show 8 + (i - 8) = i by omega]; simp [hi]
    · split
      · rw [show 16 + (i - 8 - 8) = i by omega]; simp [hi]
      · rw [show 24 + (i - 8 - 8 - 8) = i by omega]; simp [hi]

/-- The block a sequence of block bytes makes. -/
theorem blockOf_byteOf (p : Nat → Byte) (b : Nat) (x : Block) (h : ∀ j, j < 8 → p (8 * b + j) = byteOf x j) :
    blockOf p b = x := by
  have h0 := h 0 (by omega)
  have h1 := h 1 (by omega)
  have h2 := h 2 (by omega)
  have h3 := h 3 (by omega)
  have h4 := h 4 (by omega)
  have h5 := h 5 (by omega)
  have h6 := h 6 (by omega)
  have h7 := h 7 (by omega)
  simp only [Nat.add_zero] at h0
  unfold blockOf
  rw [h0, h1, h2, h3, h4, h5, h6, h7]
  obtain ⟨v0, v1⟩ := x
  have e0 := word_of_bytes v0
  have e1 := word_of_bytes v1
  simp only [byteOf]
  exact congrArg₂ Block.mk e0 e1

/-- Blocks are equal when their bytes are. -/
theorem blockOf_congr (p q : Nat → Byte) (b c : Nat) (h : ∀ j, j < 8 → p (8 * b + j) = q (8 * c + j)) :
    blockOf p b = blockOf q c := by
  have h0 := h 0 (by omega)
  simp only [Nat.add_zero] at h0
  unfold blockOf
  rw [h0, h 1 (by omega), h 2 (by omega), h 3 (by omega), h 4 (by omega), h 5 (by omega), h 6 (by omega), h 7 (by omega)]

theorem block_eq_blockOf (d : Nat) (m : Memory) (b : Nat) : Memory.block d m b = blockOf (Memory.byte d m) b := rfl

/-- A stored block: its eight bytes read as the block's, every other as before. -/
theorem byte_setBlock (d : Nat) (m : Memory) (b i : Nat) (x : Block) (hb : b < 32) :
    Memory.byte d (Memory.setBlock m b x) i = if i / 8 = b then byteOf x (i % 8) else Memory.byte d m i := by
  unfold Memory.setBlock byteOf
  rw [byte_write32 _ _ _ _ _ (by omega), byte_write32 _ _ _ _ _ (by omega)]
  by_cases h1 : 8 * b + 4 ≤ i ∧ i < 8 * b + 4 + 4
  · rw [if_pos h1, if_pos (by omega), if_neg (by omega), show i % 8 - 4 = i - (8 * b + 4) by omega]
  · rw [if_neg h1]
    by_cases h0 : 8 * b ≤ i ∧ i < 8 * b + 4
    · rw [if_pos h0, if_pos (by omega), if_pos (by omega), show i % 8 = i - 8 * b by omega]
    · rw [if_neg h0, if_neg (by omega)]

/-- `cryptBuffer` (R83), byte by byte: below `n` the bytes of each block's result, from `n` on nothing changed. -/
theorem byte_crypt (d : Nat) (f : Block → Block) (m : Memory) (n i : Nat) (hn : n ≤ 256) :
    Memory.byte d (Memory.crypt d f m n) i =
      if i / 8 < n / 8 then byteOf (f (blockOf (Memory.byte d m) (i / 8))) (i % 8) else Memory.byte d m i := by
  suffices H : ∀ k, k ≤ 32 → ∀ i, Memory.byte d ((List.range k).foldl
      (fun m b => Memory.setBlock m b (f (Memory.block d m b))) m) i =
      if i / 8 < k then byteOf (f (blockOf (Memory.byte d m) (i / 8))) (i % 8) else Memory.byte d m i from
    H (n / 8) (by omega) i
  intro k
  induction k with
  | zero => intro _ i; simp
  | succ k ih =>
    intro hk i
    rw [List.range_succ, List.foldl_append, List.foldl_cons, List.foldl_nil, byte_setBlock _ _ _ _ _ (by omega)]
    by_cases h : i / 8 = k
    · rw [if_pos h, if_pos (by omega), block_eq_blockOf, h]
      congr 2
      apply blockOf_congr
      intro j hj
      rw [ih (by omega), if_neg (by omega)]
    · rw [if_neg h, ih (by omega)]
      by_cases h' : i / 8 < k
      · rw [if_pos h', if_pos (by omega)]
      · rw [if_neg h', if_neg (by omega)]

/-- `cryptBuffer` (R83), block by block. -/
theorem block_crypt (d : Nat) (f : Block → Block) (m : Memory) (n b : Nat) (hn : n ≤ 256) (hb : b < n / 8) :
    blockOf (Memory.byte d (Memory.crypt d f m n)) b = f (blockOf (Memory.byte d m) b) := by
  apply blockOf_byteOf
  intro j hj
  rw [byte_crypt _ _ _ _ _ hn, if_pos (by omega), show (8 * b + j) / 8 = b by omega, show (8 * b + j) % 8 = j by omega]

/-- The bytes `cryptBuffer` does not touch (R83). -/
theorem byte_crypt_of_le (d : Nat) (f : Block → Block) (m : Memory) (n i : Nat) (hn : n ≤ 256) (hi : n ≤ i) :
    Memory.byte d (Memory.crypt d f m n) i = Memory.byte d m i := by
  rw [byte_crypt _ _ _ _ _ hn, if_neg (by omega)]

/-- The length check of ENCBUF and DECBUF (R86, R87). -/
theorem badCryptLength_iff (n : Nat) : badCryptLength n = true ↔ n % 8 ≠ 0 ∨ 256 < n := by
  unfold badCryptLength
  simp only [Bool.or_eq_true, bne_iff_ne, decide_eq_true_eq]
  rw [bufSize_eq]

/-- The bytes of a block as `byteOf` gives them. -/
theorem byteOf_blockOf (p : Nat → Byte) (b j : Nat) (hj : j < 8) : byteOf (blockOf p b) j = p (8 * b + j) := by
  have cut : ∀ (a b c d : Byte), (a ++ b ++ c ++ d).extractLsb' 0 8 = d ∧ (a ++ b ++ c ++ d).extractLsb' 8 8 = c ∧
      (a ++ b ++ c ++ d).extractLsb' 16 8 = b ∧ (a ++ b ++ c ++ d).extractLsb' 24 8 = a := by
    intro a b c d
    refine ⟨?_, ?_, ?_, ?_⟩ <;> ext i hi <;> simp only [BitVec.getElem_extractLsb', BitVec.getLsbD_append] <;>
      repeat' split
    all_goals first | omega | (rw [← BitVec.getLsbD_eq_getElem hi]; congr 1; omega)
  obtain ⟨c0, c1, c2, c3⟩ := cut (p (8 * b + 3)) (p (8 * b + 2)) (p (8 * b + 1)) (p (8 * b))
  obtain ⟨c4, c5, c6, c7⟩ := cut (p (8 * b + 7)) (p (8 * b + 6)) (p (8 * b + 5)) (p (8 * b + 4))
  unfold byteOf blockOf
  match j, hj with
  | 0, _ => exact c0
  | 1, _ => exact c1
  | 2, _ => exact c2
  | 3, _ => exact c3
  | 4, _ => exact c4
  | 5, _ => exact c5
  | 6, _ => exact c6
  | 7, _ => exact c7

end Sys2Proof.Machine
end

