-- ==== Sys2Proof/Laws/Codec.lean ====
section
/-! SUPPORT. The codec: what SEND's packet and RECV's result read as, byte by byte. -/

namespace Sys2Proof.Machine

theorem bytes_eq_map (d : Nat) (m : Memory) (n : Nat) : Memory.bytes d m 0 n = (List.range n).map (Memory.byte d m) := by
  simp [Memory.bytes]

theorem map_range_congr {α : Type} {f g : Nat → α} {n : Nat} (h : ∀ i, i < n → f i = g i) :
    (List.range n).map f = (List.range n).map g :=
  List.map_congr_left fun i hi => h i (List.mem_range.1 hi)

theorem plen_eq (pt : PacketType) : plen pt = 32 := by cases pt <;> rfl

theorem reservedStart_le (pt : PacketType) : reservedStart pt ≤ 24 := by cases pt <;> decide

/-- The packet with reserved region and checksum field zeroed (R96). -/
theorem byte_zeroedPacket (pt : PacketType) (d : Nat) (m : Memory) (i : Nat) :
    Memory.byte d (zeroedPacket pt m) i = zeroedByte (reservedStart pt) (Memory.byte d m) i := by
  have hr := reservedStart_le pt
  unfold zeroedPacket zeroedByte crcOffset
  rw [byte_write16 _ _ _ _ _ (by omega), byte_zero _ _ _ _ _ (by omega)]
  by_cases h : 30 ≤ i ∧ i < 30 + 2
  · rw [if_pos h, if_pos (by omega)]; simp
  · rw [if_neg h]
    by_cases h' : reservedStart pt ≤ i ∧ i < reservedStart pt + (30 - reservedStart pt)
    · rw [if_pos h', if_pos (by omega)]
    · rw [if_neg h', if_neg (by omega)]

/-- SEND's checksum (R96). -/
theorem sendChecksum_eq (pt : PacketType) (d : Nat) (m : Memory) :
    sendChecksum pt d m = checksum32 (zeroedByte (reservedStart pt) (Memory.byte d m)) := by
  unfold sendChecksum checksum32
  rw [bytes_eq_map, plen_eq]
  exact congrArg crc16 (map_range_congr fun i _ => byte_zeroedPacket pt d m i)

/-- The packet SEND encrypts (R96). -/
theorem byte_plainPacket (pt : PacketType) (d : Nat) (m : Memory) (i : Nat) :
    Memory.byte d (plainPacket pt d m) i = sentByte (reservedStart pt) (Memory.byte d m) i := by
  unfold plainPacket sentByte withChecksum crcOffset
  rw [byte_write16 _ _ _ _ _ (by omega), byte_zeroedPacket, sendChecksum_eq]
  by_cases h0 : i = 30
  · subst h0; simp
  by_cases h1 : i = 31
  · subst h1; simp
  rw [if_neg (by omega), if_neg h0, if_neg h1]

/-- The packet checksum reads the checksum field as zero (R95). -/
theorem packetChecksum_eq (d : Nat) (m : Memory) :
    packetChecksum d m = checksum32 (zeroedByte 30 (Memory.byte d m)) := by
  unfold packetChecksum checksum32 crcOffset
  rw [bytes_eq_map]
  congr 1

/-- Checksums of equal bytes are equal. -/
theorem checksum32_congr {p q : Nat → Byte} (h : ∀ i, i < 32 → p i = q i) : checksum32 p = checksum32 q :=
  congrArg crc16 (map_range_congr h)

/-- The bytes RECV leaves (R97). -/
theorem received_byte (pt : PacketType) (s : State) (i : Nat) :
    (received pt s).byte i = if i < 32 then decryptedByte s.inKey s.byte i else s.byte i := by
  show Memory.byte s.resets (Memory.crypt s.resets (decryptBlock s.inKey) s.buf (plen pt)) i = _
  rw [plen_eq, byte_crypt _ _ _ _ _ (by omega)]
  by_cases h : i < 32
  · rw [if_pos (by omega), if_pos h]; rfl
  · rw [if_neg (by omega), if_neg h]; rfl

/-- The embedded checksum RECV reads (R91, R97). -/
theorem received_rxcrc (pt : PacketType) (s : State) :
    (received pt s).rxcrc = decryptedByte s.inKey s.byte 31 ++ decryptedByte s.inKey s.byte 30 := by
  have h31 := received_byte pt s 31
  have h30 := received_byte pt s 30
  rw [if_pos (by omega)] at h31 h30
  rw [← h31, ← h30]
  rfl

/-- The checksum RECV recomputes (R95, R97). -/
theorem received_crc (pt : PacketType) (s : State) :
    (received pt s).crc = checksum32 (zeroedByte 30 (decryptedByte s.inKey s.byte)) := by
  have : (received pt s).crc = packetChecksum (received pt s).resets (received pt s).buf := rfl
  rw [this, packetChecksum_eq]
  apply checksum32_congr
  intro i hi
  have hb := received_byte pt s i
  rw [if_pos hi] at hb
  unfold zeroedByte
  split
  · rfl
  · exact hb

end Sys2Proof.Machine
end

