-- ==== Sys2Proof/Laws/PerInstr.lean ====
section
/-! SUPPORT. What holds of every instruction as syntax, one lemma per constructor. -/

namespace Sys2Proof.Laws.EncodedWordIsWellFormed

/-- The word an instruction is encoded as has well-formed fields (R51). -/
def Statement (i : Instr) : Prop := (CommandWord.ofWord (encode i)).wf = true

theorem clr : Statement .clr := Eq.refl true

theorem crc : Statement .crc := Eq.refl true

theorem encb (ksel : Role) : Statement (.encb ksel) := by cases ksel <;> exact Eq.refl true

theorem decb (ksel : Role) : Statement (.decb ksel) := by cases ksel <;> exact Eq.refl true

theorem encbuf (ksel : Role) : Statement (.encbuf ksel) := by cases ksel <;> exact Eq.refl true

theorem decbuf (ksel : Role) : Statement (.decbuf ksel) := by cases ksel <;> exact Eq.refl true

theorem send (pt : PacketType) : Statement (.send pt) := by cases pt <;> exact Eq.refl true

theorem recv (pt : PacketType) : Statement (.recv pt) := by cases pt <;> exact Eq.refl true

end Sys2Proof.Laws.EncodedWordIsWellFormed
end

