-- ==== Sys2Proof/Laws/Step.lean ====
section
/-! SUPPORT. What one step can do, said once: by command, by access, by input. -/

namespace Sys2Proof.Machine

/-- BUF overwritten after CRC is set. -/
theorem setBuf_setCrc_setBuf (s : State) (m m' : Memory) (c : Half) :
    ((s.setBuf m).setCrc c).setBuf m' = (s.setBuf m').setCrc c := rfl

/-- SEND as updates of the state (R96). -/
theorem execSend_eq (pt : PacketType) (s : State) : execSend pt s = .next
    ((((s.setBuf (Memory.crypt s.resets (encryptBlock s.outKey) (plainPacket pt s.resets s.buf) 32)).setCrc
      (sendChecksum pt s.resets s.buf)).setLen 32#16).setStatus .none false) := by
  unfold execSend
  simp only [plen_eq, setBuf_setCrc_setBuf, State.setCrc_outKey, State.setBuf_outKey, State.setCrc_resets, State.setBuf_resets,
    State.setCrc_buf, State.setBuf_buf, State.complete_eq]

/-- Which writes a command can make before its end: the state just before STATUS is written, and the STATUS it gets. -/
theorem exec_cases (i : Instr) (s : State) : ∃ (u : State) (e : ErrCode) (v : Bool), exec i s = .next (u.setStatus e v) ∧
    ((u = s ∧ v = false ∧ (e = .none ∨ e = .preconditionViolation ∨ e = .frameLengthMismatch)) ∨
     (∃ c, u = s.setCrc c ∧ e = .none ∧ v = false) ∨
     (∃ b, u = s.setV b ∧ e = .none ∧ v = false) ∨
     (∃ f, s.len.toNat ≤ 256 ∧ u = s.setBuf (Memory.crypt s.resets f s.buf s.len.toNat) ∧ e = .none ∧ v = false) ∨
     (∃ pt, u = ((s.setBuf (Memory.crypt s.resets (encryptBlock s.outKey) (plainPacket pt s.resets s.buf) 32)).setCrc
        (sendChecksum pt s.resets s.buf)).setLen 32#16 ∧ e = .none ∧ v = false) ∨
     (∃ pt, u = received pt s ∧ e = (if u.crc = u.rxcrc then .none else .integrityCheckFailed) ∧ v = (u.crc == u.rxcrc))) := by
  cases i with
  | clr => exact ⟨s, .none, false, rfl, .inl ⟨rfl, rfl, .inl rfl⟩⟩
  | crc =>
    by_cases h : Config.bufSize < s.len.toNat
    · exact ⟨s, .preconditionViolation, false, by simp [exec, execCrc, h], .inl ⟨rfl, rfl, .inr (.inl rfl)⟩⟩
    · exact ⟨_, .none, false, by simp [exec, execCrc, h]; rfl, .inr (.inl ⟨_, rfl, rfl, rfl⟩)⟩
  | encb k => exact ⟨_, .none, false, rfl, .inr (.inr (.inl ⟨_, rfl, rfl, rfl⟩))⟩
  | decb k => exact ⟨_, .none, false, rfl, .inr (.inr (.inl ⟨_, rfl, rfl, rfl⟩))⟩
  | encbuf k =>
    by_cases h : badCryptLength s.len.toNat = true
    · exact ⟨s, .preconditionViolation, false, by simp [exec, execEncbuf, h], .inl ⟨rfl, rfl, .inr (.inl rfl)⟩⟩
    · refine ⟨_, .none, false, by simp [exec, execEncbuf, h]; rfl, .inr (.inr (.inr (.inl ⟨_, ?_, rfl, rfl, rfl⟩)))⟩
      rw [badCryptLength_iff] at h
      omega
  | decbuf k =>
    by_cases h : badCryptLength s.len.toNat = true
    · exact ⟨s, .preconditionViolation, false, by simp [exec, execDecbuf, h], .inl ⟨rfl, rfl, .inr (.inl rfl)⟩⟩
    · refine ⟨_, .none, false, by simp [exec, execDecbuf, h]; rfl, .inr (.inr (.inr (.inl ⟨_, ?_, rfl, rfl, rfl⟩)))⟩
      rw [badCryptLength_iff] at h
      omega
  | send pt =>
    exact ⟨_, .none, false, execSend_eq pt s, .inr (.inr (.inr (.inr (.inl ⟨pt, rfl, rfl, rfl⟩))))⟩
  | recv pt =>
    by_cases hl : s.len.toNat = plen pt
    · refine ⟨received pt s, _, _, ?_, .inr (.inr (.inr (.inr (.inr ⟨pt, rfl, rfl, rfl⟩))))⟩
      by_cases hc : (received pt s).crc = (received pt s).rxcrc
      · simp [exec, execRecv, hl, hc]
      · simp [exec, execRecv, hl, hc, beq_eq_false_iff_ne.2 hc]
    · exact ⟨s, .frameLengthMismatch, false, by simp [exec, execRecv, hl], .inl ⟨rfl, rfl, .inr (.inr rfl)⟩⟩

/-- A step of an idle machine. -/
theorem step_idle {s : State} (h : s.pending = []) : step s = .next s := by
  simp [step, stepOnce, h]

/-- A step with an input pending. -/
theorem step_input {s : State} {i : Input} {rest : List Input} (h : s.pending = i :: rest) :
    step s = performInput i (s.setPending rest) := by
  simp [step, stepOnce, h]

/-- Every read is an answer and no more (R45). -/
theorem performAccess_read (w : Width) (off : Offset) (s : State) :
    performAccess (.read w off) s = .next (s.respond (hostRead w off s)) := rfl

/-- The target of an admitted access is a register below offset 0x040 and BUF above (R60). -/
theorem target_eq_some {w : Width} {off : Offset} {t : Target} (h : target w off = some t) :
    (off.toNat < 0x040 ∧ w = .w32 ∧ off.toNat % 4 = 0 ∧ t = .reg (regAt (off.toNat / 4))) ∨
    (0x100 ≤ off.toNat ∧ off.toNat % bytesOf w = 0 ∧ t = .buf (off.toNat - 0x100)) := by
  unfold target admitted at h
  split at h
  · rename_i ha
    simp at ha h
    rcases ha with ⟨⟨h1, h2⟩, h3⟩ | ⟨h1, h2⟩
    · rw [if_pos h1] at h; exact .inl ⟨h1, h2, h3, h.symm⟩
    · rw [if_neg (by omega)] at h; exact .inr ⟨h1, h2, h.symm⟩
  · simp at h

end Sys2Proof.Machine
end

