-- ==== Sys2Proof/Tests/Slice0.lean ====
section
/-! SUPPORT. Tests on values of spec/95_test_vectors.md (the V-… names), each on one step or one function; the smoke tests of the
well-formedness checks; and, for each obligation with hypotheses, values that meet them. -/

set_option maxRecDepth 20000

namespace Sys2Proof.Tests

open Sys2Proof.Machine

/-! ## Helpers -/

/-- The key `K` of 95_test_vectors.md. -/
def keyK : Key := ⟨0xA56BABCD#32, 0x0000FFFF#32, 0xABCDEF01#32, 0x12345678#32⟩

/-- The key `KV1` of 95_test_vectors.md. -/
def keyKV1 : Key := ⟨0x11111111#32, 0x22222222#32, 0x33333333#32, 0x44444444#32⟩

/-- BUF with these bytes written from index 0 on. -/
def bufOf (bs : List Byte) : Memory := bs.zipIdx.map fun x => (x.2, x.1)

/-- KEYC = K and KEYV = KV1, LEN as given, and these bytes in BUF. -/
def machine (len : Half) (bs : List Byte) : State :=
  { State.reset with keyC := keyK, keyV := keyKV1, len := len, buf := bufOf bs }

/-- The `n` bytes 00 01 02 and so on. -/
def counting (n : Nat) : List Byte := (List.range n).map (BitVec.ofNat 8)

/-- The outcome is a next state with this property. -/
def leads (o : Host.Outcome State Fault Refusal) (p : State → Bool) : Bool :=
  match o with
  | .next t => p t
  | .fault _ => false
  | .refused _ => false

/-- BUF holds these bytes from index 0 on. -/
def holds (s : State) (bs : List Byte) : Bool :=
  Memory.bytes s.resets s.buf 0 bs.length == bs

/-- A step on this one access is answered `r` and leads to a state with this property. -/
def answers (s : State) (a : Access) (r : Response) (p : State → Bool := fun _ => true) : Bool :=
  leads (step (s.facing (.access a) [])) fun t => t.responses == [r] && t.pending == [] && p t

/-- "123456789". -/
def digits : List Byte := [0x31#8, 0x32#8, 0x33#8, 0x34#8, 0x35#8, 0x36#8, 0x37#8, 0x38#8, 0x39#8]

/-- The fields of the telemetry packet of V-CODEC-1. -/
def telemetryFields : List Byte :=
  [0x00#8, 0x00#8, 0x48#8, 0x41#8, 0x00#8, 0x00#8, 0x34#8, 0x42#8, 0x9A#8, 0x99#8, 0xF0#8, 0x42#8,
   0xCD#8, 0xCC#8, 0x4C#8, 0x40#8, 0xCD#8, 0xCC#8, 0xCC#8, 0x3D#8, 0xE8#8, 0x03#8, 0x00#8, 0x00#8]

/-- The plaintext SEND encrypts in V-CODEC-1. -/
def telemetryPlain : List Byte :=
  telemetryFields ++ [0x00#8, 0x00#8, 0x00#8, 0x00#8, 0x00#8, 0x00#8, 0x2C#8, 0xC1#8]

/-- The frame of V-CODEC-1. -/
def telemetryFrame : List Byte :=
  [0xCF#8, 0xBC#8, 0xA1#8, 0xD1#8, 0xC4#8, 0x4A#8, 0x92#8, 0x9A#8, 0xEB#8, 0x0B#8, 0x90#8, 0xAE#8, 0x06#8, 0x27#8, 0xBF#8, 0x46#8,
   0xA3#8, 0xDB#8, 0x98#8, 0xDB#8, 0xA7#8, 0xC8#8, 0x70#8, 0x9C#8, 0x57#8, 0x2D#8, 0xBE#8, 0x97#8, 0x61#8, 0x14#8, 0x9E#8, 0x24#8]

/-- The fields of the command packet of V-CODEC-9. -/
def commandFields : List Byte := [0x10#8, 0x20#8, 0x30#8, 0x40#8, 0xFF#8, 0x01#8, 0x80#8, 0x7F#8]

/-- The frame of V-CODEC-9. -/
def commandFrame : List Byte :=
  [0xC1#8, 0xD1#8, 0x53#8, 0x4A#8, 0x97#8, 0xF1#8, 0x20#8, 0x38#8, 0x90#8, 0xC2#8, 0x7A#8, 0xF0#8, 0x72#8, 0x26#8, 0xC9#8, 0x23#8,
   0x90#8, 0xC2#8, 0x7A#8, 0xF0#8, 0x72#8, 0x26#8, 0xC9#8, 0x23#8, 0xC1#8, 0x73#8, 0xC7#8, 0x12#8, 0xFD#8, 0x91#8, 0xBF#8, 0xF2#8]

/-- The ciphertext of V-BUF-1. -/
def cipher16 : List Byte :=
  [0x6F#8, 0xF3#8, 0x9E#8, 0x24#8, 0x2F#8, 0x10#8, 0x04#8, 0x0C#8, 0xED#8, 0x05#8, 0xD7#8, 0xC1#8, 0x9B#8, 0xE9#8, 0xEA#8, 0x65#8]

/-! ## Decoding (R51, R54; V-DEC-1 to V-DEC-14), the words written out bit by bit -/

theorem test_decode_clr : decode 0b00000000000000000000000000000000#32 = .command .clr := by decide

theorem test_decode_crc : decode 0b00000000000000000000000000000001#32 = .command .crc := by decide

theorem test_decode_encb : decode 0b00000000000000000000000000000010#32 = .command (.encb .controller) ∧
    decode 0b00000000000000000000000000010010#32 = .command (.encb .vehicle) := by decide

theorem test_decode_decb : decode 0b00000000000000000000000000000011#32 = .command (.decb .controller) ∧
    decode 0b00000000000000000000000000010011#32 = .command (.decb .vehicle) := by decide

theorem test_decode_encbuf : decode 0b00000000000000000000000000000100#32 = .command (.encbuf .controller) ∧
    decode 0b00000000000000000000000000010100#32 = .command (.encbuf .vehicle) := by decide

theorem test_decode_decbuf : decode 0b00000000000000000000000000000101#32 = .command (.decbuf .controller) ∧
    decode 0b00000000000000000000000000010101#32 = .command (.decbuf .vehicle) := by decide

theorem test_decode_send : decode 0b00000000000000000000000000000110#32 = .command (.send .telemetry) ∧
    decode 0b00000000000000000000000000100110#32 = .command (.send .command) := by decide

theorem test_decode_recv : decode 0b00000000000000000000000000000111#32 = .command (.recv .telemetry) ∧
    decode 0b00000000000000000000000000100111#32 = .command (.recv .command) := by decide

/-- V-DEC-9 to V-DEC-14. -/
theorem test_decode_illegal :
    ([0x08#32, 0x0F#32, 0x2F#32].all fun w => decode w == .illegal .reservedOpcode) = true ∧
    ([0x10#32, 0x11#32, 0x16#32, 0x17#32, 0x22#32, 0x21#32, 0x32#32, 0x36#32, 0x37#32, 0x40#32, 0x100#32, 0x80000001#32].all
      fun w => decode w == .illegal .mustBeZero) = true := by decide

theorem test_decodeTableWord : decodeTableWord 32 0x14 = some (.encbuf .vehicle) ∧ decodeTableWord 32 0x16 = none ∧
    decodeTableWord 8 0x106 = some (.send .telemetry) := by decide

/-! ## Well-formedness: an ill-formed term for each check -/

theorem test_wf_ok : (CommandWord.ofWord 0x27#32).wf = true := by decide

theorem test_wf_must_be_zero : (⟨0x0#4, 0#1, 0#1, 1#26⟩ : CommandWord).wf = false := by decide

theorem test_wf_reserved_opcode : (⟨0x8#4, 0#1, 0#1, 0#26⟩ : CommandWord).wf = false := by decide

theorem test_wf_key_selector_outside_K : (⟨0x1#4, 1#1, 0#1, 0#26⟩ : CommandWord).wf = false ∧
    (⟨0x6#4, 1#1, 0#1, 0#26⟩ : CommandWord).wf = false := by decide

theorem test_wf_packet_type_outside_P : (⟨0x0#4, 0#1, 1#1, 0#26⟩ : CommandWord).wf = false ∧
    (⟨0x5#4, 0#1, 1#1, 0#26⟩ : CommandWord).wf = false := by decide

theorem test_layout_gap : layoutWf [⟨0, "a", .f32⟩, ⟨6, "crc16", .u16⟩] = false := by decide

/-- The 36 bytes that conflict C1 sets aside are no multiple of 8. -/
theorem test_layout_size : layoutWf [⟨0, "a", .reserved 34⟩, ⟨34, "crc16", .u16⟩] = false := by decide

theorem test_layout_empty : layoutWf [] = false := by decide

theorem test_layout_last_field : layoutWf [⟨0, "a", .u32⟩, ⟨4, "crc16", .u32⟩] = false := by decide

/-! ## Commands -/

/-- V-CLR-2, from the state after a validated RECV. -/
theorem test_clr : leads (exec .clr { State.reset with valid := true, crc := 0xC12C#16, rxcrc := 0xC12C#16 })
    (fun t => t == { State.reset with crc := 0xC12C#16, rxcrc := 0xC12C#16 }) = true := by decide

/-- V-CRC-1, V-CRC-2, V-CRC-5, V-CRC-11, V-CRC-12. -/
theorem test_crc16 : crc16 [] = 0xFFFF#16 ∧ crc16 [0x00#8] = 0xE1F0#16 ∧ crc16 digits = 0x29B1#16 ∧
    crc16 (digits ++ [0x29#8, 0xB1#8]) = 0x0000#16 ∧ crc16 (digits ++ [0xB1#8, 0x29#8]) = 0x93F3#16 := by decide +kernel

/-- V-CRC-15. -/
theorem test_crc_whole_buffer : leads (exec .crc (machine 256#16 (counting 256)))
    (fun t => t.crc == 0x3FBD#16 && t.err == .none && !t.valid) = true := by decide +kernel

/-- V-CRC-16. -/
theorem test_crc_too_long : leads (exec .crc (machine 257#16 (counting 256)))
    (fun t => t.crc == 0x0000#16 && t.err == .preconditionViolation) = true := by decide +kernel

/-- V-CIPH-9 and V-CIPH-3. -/
theorem test_encryptBlock :
    encryptBlock ⟨0x00010203#32, 0x04050607#32, 0x08090A0B#32, 0x0C0D0E0F#32⟩ ⟨0x41424344#32, 0x45464748#32⟩ =
      ⟨0x497DF3D0#32, 0x72612CB5#32⟩ ∧
    decryptBlock Key.zero ⟨0#32, 0#32⟩ = ⟨0x2B6E57D5#32, 0x667C2111#32⟩ := by decide +kernel

/-- V-CIPH-1, with the keys locked (V-CIPH-13). -/
theorem test_encb : leads (exec (.encb .controller) { machine 0#16 [] with v0 := 0x01234567#32, v1 := 0x89ABCDEF#32, klock := true })
    (fun t => t.v0 == 0x9A87AC1F#32 && t.v1 == 0x61297E8C#32 && t.err == .none) = true := by decide +kernel

/-- V-CIPH-10. -/
theorem test_encb_vehicle : leads (exec (.encb .vehicle) { machine 0#16 [] with v0 := 0x01234567#32, v1 := 0x89ABCDEF#32 })
    (fun t => t.v0 == 0x7E668B2C#32 && t.v1 == 0xF1FD0308#32) = true := by decide +kernel

/-- V-CIPH-2. -/
theorem test_decb : leads (exec (.decb .controller) { machine 0#16 [] with v0 := 0x9A87AC1F#32, v1 := 0x61297E8C#32 })
    (fun t => t.v0 == 0x01234567#32 && t.v1 == 0x89ABCDEF#32) = true := by decide +kernel

/-- V-CIPH-12: a wrong key is not signalled. -/
theorem test_decb_wrong_key : leads (exec (.decb .vehicle) { State.reset with v0 := 0x9A87AC1F#32, v1 := 0x61297E8C#32 })
    (fun t => t.v0 == 0xB2B2DF54#32 && t.v1 == 0xD8367254#32 && t.err == .none) = true := by decide +kernel

/-- V-BUF-1: the bytes from 16 on stay. -/
theorem test_encbuf : leads (exec (.encbuf .controller) (machine 16#16 (counting 20)))
    (fun t => holds t (cipher16 ++ [0x10#8, 0x11#8, 0x12#8, 0x13#8]) && t.err == .none) = true := by decide +kernel

/-- V-BUF-7, V-BUF-8, V-BUF-9. -/
theorem test_encbuf_bad_length : ([12#16, 255#16, 264#16].all fun n => leads (exec (.encbuf .controller) (machine n (counting 16)))
    fun t => t == { machine n (counting 16) with err := .preconditionViolation }) = true := by decide +kernel

/-- V-BUF-2. -/
theorem test_decbuf : leads (exec (.decbuf .controller) (machine 16#16 cipher16))
    (fun t => holds t (counting 16) && t.err == .none) = true := by decide +kernel

/-- V-BUF-6, for DECBUF: LEN = 0 succeeds and changes no byte. -/
theorem test_decbuf_empty : leads (exec (.decbuf .vehicle) { machine 0#16 cipher16 with err := .illegalCommand })
    (fun t => t == machine 0#16 cipher16) = true := by decide +kernel

/-- V-CODEC-1. -/
theorem test_send : leads (exec (.send .telemetry) { machine 0#16 (telemetryFields ++ List.replicate 8 0xAA#8) with role := .vehicle })
    (fun t => holds t telemetryFrame && t.crc == 0xC12C#16 && t.len == 32#16 && t.err == .none) = true := by decide +kernel

/-- V-CODEC-9; byte 32 stays. -/
theorem test_send_command : leads (exec (.send .command) (machine 0#16 (commandFields ++ List.replicate 25 0x55#8)))
    (fun t => holds t (commandFrame ++ [0x55#8]) && t.crc == 0xBBA0#16) = true := by decide +kernel

/-- V-CODEC-2: the embedded checksum stays in BUF. -/
theorem test_recv : leads (exec (.recv .telemetry) (machine 32#16 telemetryFrame))
    (fun t => holds t telemetryPlain && t.crc == 0xC12C#16 && t.rxcrc == 0xC12C#16 && t.valid && t.err == .none) = true := by
  decide +kernel

/-- V-CODEC-4: the other role's key. -/
theorem test_recv_wrong_key : leads (exec (.recv .telemetry) { machine 32#16 telemetryFrame with role := .vehicle })
    (fun t => t.crc == 0x7B92#16 && t.rxcrc == 0x6E92#16 && !t.valid && t.err == .integrityCheckFailed) = true := by decide +kernel

/-! ## Steps -/

/-- V-ERR-1: decoding comes before the length. -/
theorem test_step_illegal : answers { machine 31#16 [] with valid := true } (.write32 0x008#9 0x00000017#32) .done
    (fun t => t.err == .illegalCommand && !t.valid && t.len == 31#16) = true := by decide

/-- V-ERR-2, through the step. -/
theorem test_step_command : answers (machine 31#16 []) (.write32 0x008#9 0x00000007#32) .done
    (fun t => t.err == .frameLengthMismatch) = true := by decide

/-- V-HOST-1 to V-HOST-6 and V-HOST-19's read. -/
theorem test_host_buffer_reads :
    answers (machine 0#16 (counting 256)) (.read .w8 0x103#9) (.value8 0x03#8) = true ∧
    answers (machine 0#16 (counting 256)) (.read .w16 0x102#9) (.value16 0x0302#16) = true ∧
    answers (machine 0#16 (counting 256)) (.read .w16 0x103#9) .busError = true ∧
    answers (machine 0#16 (counting 256)) (.read .w32 0x106#9) .busError = true ∧
    answers (machine 0#16 (counting 256)) (.read .w32 0x1FC#9) (.value32 0xFFFEFDFC#32) = true := by decide +kernel

/-- V-HOST-7 to V-HOST-11 and V-HOST-18. -/
theorem test_host_bus_errors : ∀ a ∈ [Access.read .w16 0x000#9, .read .w8 0x004#9, .read .w32 0x002#9, .read .w32 0x040#9,
      .write32 0x0FC#9 1#32, .write16 0x101#9 0xBEEF#16, .write8 0x00C#9 1#8, .write16 0x00C#9 1#16],
    answers (machine 7#16 (counting 4)) a .busError (fun t => t.bare == machine 7#16 (counting 4)) = true := by decide

/-- V-HOST-12, V-HOST-13 and V-HOST-17's write. -/
theorem test_host_writes :
    answers State.reset (.write32 0x00C#9 0xFFFF0020#32) .done (fun t => t.len == 0x0020#16) = true ∧
    answers State.reset (.write32 0x020#9 5#32) .done (fun t => t.keyC.k0 == 5#32 && t.readReg (.keyC 0#2) == 0#32) = true ∧
    answers State.reset (.write32 0x03C#9 6#32) .done (fun t => t.keyV.k3 == 6#32) = true ∧
    answers State.reset (.write32 0x108#9 0x44332211#32) .done (fun t => t.byte 8 == 0x11#8 && t.byte 11 == 0x44#8) = true := by
  decide

/-- V-HOST-20, V-HOST-21, V-HOST-22: the lock. -/
theorem test_host_lock :
    answers State.reset (.write32 0x000#9 0x3#32) .done (fun t => t.role == .vehicle && t.klock && t.ctrlWord == 0x3#32) = true ∧
    answers { State.reset with klock := true } (.write32 0x000#9 0x1#32) .done (fun t => t.role == .controller && t.klock) = true ∧
    answers { State.reset with klock := true } (.write32 0x020#9 7#32) .done (fun t => t.keyC == Key.zero) = true ∧
    answers State.reset (.write32 0x000#9 0xFFFFFFFD#32) .done (fun t => t.role == .vehicle && !t.klock) = true := by decide

/-- V-RST-1, from a locked block. -/
theorem test_reset_input : leads (step ({ machine 9#16 (counting 4) with klock := true, err := .illegalCommand }.facing .reset []))
    (fun t => !t.klock && t.keyC == Key.zero && t.len == 0#16 && t.err == .none && t.buf == [] && t.resets == 1) = true := by decide

theorem test_withFetchWord : leads (step (State.reset.withFetchWord 32 0x5)) (fun t => t.err == .none && t.responses == [.done]) =
    true := by decide

/-- R58's expansions. -/
theorem test_pseudo :
    listing [.command (.encbuf .vehicle), .lock .vehicle, .setrole .controller, .setlen 32#32] =
      [.access (.write32 0x008#9 0x14#32), .access (.write32 0x000#9 0x3#32), .access (.write32 0x000#9 0x0#32),
       .access (.write32 0x00C#9 32#32)] ∧
    listing [.setkey .vehicle keyKV1, .setv ⟨1#32, 2#32⟩] =
      [.access (.write32 0x030#9 0x11111111#32), .access (.write32 0x034#9 0x22222222#32), .access (.write32 0x038#9 0x33333333#32),
       .access (.write32 0x03C#9 0x44444444#32), .access (.write32 0x018#9 1#32), .access (.write32 0x01C#9 2#32)] := by decide

/-! ## Values that meet the hypotheses of the obligations -/

theorem witness_DecodeAndEncodeAgree : decode 0x27#32 = .command (.recv .command) := by decide

theorem witness_DecodeFollowsTheOpcodeMap :
    decode 0x14#32 = .command (.encbuf .vehicle) ∧ decode 0x06#32 = .command (.send .telemetry) ∧
    (∃ r ∈ opcodeMap, r.hits 0x14#32 = true) ∧ decode 0x08#32 = .illegal .reservedOpcode ∧
    ∀ r ∈ opcodeMap, r.hits 0x08#32 = false := by decide

theorem witness_EveryOtherWordOnlyRecordsIllegalCommand :
    0x28#32 ∉ [0x00#32, 0x01#32, 0x02#32, 0x12#32, 0x03#32, 0x13#32, 0x04#32, 0x14#32, 0x05#32, 0x15#32, 0x06#32, 0x26#32,
      0x07#32, 0x27#32] := by decide

theorem witness_StepRunsTheDecodedCommand : decode 0x12#32 = .command (.encb .vehicle) := by decide

/-- The admission clause, at the ends of both ranges and just outside them. -/
theorem witness_OnlyAdmittedAccessesActAndOthersAnswerBusError :
    (∀ a ∈ [Access.read .w32 0x000#9, .write32 0x03C#9 0#32, .read .w8 0x100#9, .write8 0x1FF#9 0#8, .read .w16 0x1FE#9,
        .write32 0x1FC#9 0#32],
      (accessOffset a).toNat < 0x040 ∧ accessWidth a = .w32 ∧ (accessOffset a).toNat % 4 = 0 ∨
        0x100 ≤ (accessOffset a).toNat ∧ (accessOffset a).toNat % bytesOf (accessWidth a) = 0) ∧
    ∀ a ∈ [Access.read .w32 0x03E#9, .read .w16 0x03C#9, .write8 0x008#9 0#8, .read .w32 0x040#9, .write8 0x0FF#9 0#8,
        .read .w16 0x1FF#9, .write32 0x1FE#9 0#32],
      ¬((accessOffset a).toNat < 0x040 ∧ accessWidth a = .w32 ∧ (accessOffset a).toNat % 4 = 0 ∨
        0x100 ≤ (accessOffset a).toNat ∧ (accessOffset a).toNat % bytesOf (accessWidth a) = 0) := by decide

theorem witness_BufferAccessesReadAndWriteTheirBytes :
    255 < 256 ∧ (254 < 256 ∧ 254 % 2 = 0) ∧ (252 < 256 ∧ 252 % 4 = 0) := by decide

theorem witness_ReadsHaveNoSideEffectAndWritesAreIdempotent :
    accessOffset (.write32 0x000#9 3#32) ≠ 0x008#9 ∧ accessOffset (.write32 0x00C#9 3#32) ≠ 0x008#9 := by decide

theorem witness_EveryStepKeepsTheInvariant :
    Inv { machine 32#16 telemetryFrame with err := .integrityCheckFailed, crc := 1#16 } ∧
    Inv { machine 32#16 telemetryFrame with valid := true } ∧
    ∃ t, step ({ machine 32#16 telemetryFrame with valid := true }.facing (.access (.write32 0x008#9 0#32)) []) = .next t :=
  ⟨⟨by decide +kernel, by decide, by decide, by decide⟩, ⟨by decide +kernel, by decide, by decide, by decide⟩, _, rfl⟩

theorem witness_LockedKeysAndRoleStayUntilReset :
    ({ State.reset with klock := true, pending := [.access (.write32 0x000#9 1#32), .access (.write32 0x020#9 7#32)] } :
      State).klock = true ∧
    Input.reset ∉ [Input.access (.write32 0x000#9 1#32), .access (.write32 0x020#9 7#32)] := by decide

theorem witness_KeysRoleAndLockChangeOnlyByHostWritesOrReset_role :
    ∃ s t, step s = .next t ∧ s.pending.head? ≠ some .reset ∧ t.role ≠ s.role ∧ t.klock ≠ s.klock :=
  ⟨State.reset.facing (.access (.write32 0x000#9 3#32)) [], _, rfl, by decide, by decide, by decide⟩

theorem witness_KeysRoleAndLockChangeOnlyByHostWritesOrReset_keyC :
    ∃ s t, step s = .next t ∧ s.pending.head? ≠ some .reset ∧ t.keyC ≠ s.keyC :=
  ⟨State.reset.facing (.access (.write32 0x02C#9 3#32)) [], _, rfl, by decide, by decide⟩

theorem witness_KeysRoleAndLockChangeOnlyByHostWritesOrReset_keyV :
    ∃ s t, step s = .next t ∧ s.pending.head? ≠ some .reset ∧ t.keyV ≠ s.keyV :=
  ⟨State.reset.facing (.access (.write32 0x030#9 3#32)) [], _, rfl, by decide, by decide⟩

theorem witness_InitialisationListingSetsKeysRoleAndLock : (machine 5#16 digits).klock = false := by decide

theorem witness_StatusAndChecksumsChangeOnlyByCommandsOrReset :
    ∃ s t, step s = .next t ∧ (t.err ≠ s.err ∨ t.valid ≠ s.valid ∨ t.crc ≠ s.crc ∨ t.rxcrc ≠ s.rxcrc) :=
  ⟨State.reset.facing (.access (.write32 0x008#9 8#32)) [], _, rfl, by decide⟩

theorem witness_StatusReadsOneOfSixWords : Inv { State.reset with valid := true, crc := 5#16, rxcrc := 5#16 } :=
  ⟨by decide, by decide, by decide, by decide⟩

/-- The guards of the frame's clauses, and a byte that a command changes. -/
theorem witness_CommandsChangeOnlyTheirOwnState :
    (∀ k, Instr.clr ≠ .encb k) ∧ (∀ k, Instr.clr ≠ .decb k) ∧ (∀ p, Instr.clr ≠ .recv p) ∧ (∀ p, Instr.clr ≠ .send p) ∧
    Instr.clr ≠ .crc ∧
    leads (exec (.encbuf .controller) (machine 8#16 (counting 8))) (fun t => t.byte 7 != (machine 8#16 (counting 8)).byte 7) =
      true := by
  refine ⟨nofun, nofun, nofun, nofun, nofun, ?_⟩
  decide +kernel

/-- A validated RECV, and the two codes after which nothing but STATUS has changed. -/
theorem witness_CommandsRecordTheirErrorCodes :
    leads (exec (.recv .command) { machine 32#16 commandFrame with role := .vehicle }) (fun t => t.valid) = true ∧
    leads (exec (.recv .command) (machine 33#16 [])) (fun t => t.err == .frameLengthMismatch) = true ∧
    leads (exec (.decbuf .vehicle) (machine 12#16 [])) (fun t => t.err == .preconditionViolation) = true := by decide +kernel

theorem witness_ChangingOneByteChangesTheChecksum : (0x31#8 : Byte) ≠ 0x30#8 := by decide

theorem witness_CrcWritesTheChecksumOfTheBuffer :
    (machine 256#16 []).len.toNat ≤ 256 ∧ (machine 0#16 []).len.toNat ≤ 256 ∧ 256 < (machine 257#16 []).len.toNat := by decide

theorem witness_CrcDependsOnlyOnLengthAndBytes :
    (machine 4#16 (counting 4)).len = { State.reset with len := 4#16, buf := bufOf (counting 9) }.len ∧
    (machine 4#16 (counting 4)).len.toNat ≤ 256 ∧
    ∀ i, i < (machine 4#16 (counting 4)).len.toNat →
      (machine 4#16 (counting 4)).byte i = State.byte { State.reset with len := 4#16, buf := bufOf (counting 9) } i := by
  decide +kernel

/-- The lengths 12 and 264 that ENCBUF refuses, and 0 and 256 that it takes, with the last block and the byte past it. -/
theorem witness_EncbufEncryptsTheBufferBlockByBlock :
    (machine 12#16 []).len.toNat % 8 ≠ 0 ∧ 256 < (machine 264#16 []).len.toNat ∧
    ((machine 0#16 []).len.toNat % 8 = 0 ∧ (machine 0#16 []).len.toNat ≤ 256) ∧
    ((machine 256#16 []).len.toNat % 8 = 0 ∧ (machine 256#16 []).len.toNat ≤ 256 ∧ 31 < (machine 256#16 []).len.toNat / 8) ∧
    (machine 8#16 []).len.toNat ≤ 8 := by decide

/-- The lengths 255 and 65528 that DECBUF refuses, and 8 that it takes, with its block and the byte past it. -/
theorem witness_DecbufDecryptsTheBufferBlockByBlock :
    (machine 255#16 []).len.toNat % 8 ≠ 0 ∧ 256 < (machine 65528#16 []).len.toNat ∧
    ((machine 8#16 []).len.toNat % 8 = 0 ∧ (machine 8#16 []).len.toNat ≤ 256 ∧ 0 < (machine 8#16 []).len.toNat / 8 ∧
      (machine 8#16 []).len.toNat ≤ 8) := by decide

theorem witness_BufferCipherRoundTripRestoresTheBuffer :
    (machine 256#16 (counting 256)).len.toNat % 8 = 0 ∧ (machine 256#16 (counting 256)).len.toNat ≤ 256 := by decide

theorem witness_BlocksAreCipheredIndependently :
    (machine 8#16 (counting 8)).keyOf .controller = (machine 256#16 []).keyOf .controller ∧
    (machine 8#16 (counting 8)).len.toNat % 8 = 0 ∧ (machine 8#16 (counting 8)).len.toNat ≤ 256 ∧
    8 * 0 < (machine 8#16 (counting 8)).len.toNat ∧
    (machine 256#16 []).len.toNat % 8 = 0 ∧ (machine 256#16 []).len.toNat ≤ 256 ∧ 8 * 31 < (machine 256#16 []).len.toNat := by
  decide

theorem witness_SendDoesNotReadReservedBytes :
    (machine 0#16 (telemetryFields ++ [0xAA#8])).role = (machine 9#16 (telemetryFields ++ [0x55#8])).role ∧
    (machine 0#16 (telemetryFields ++ [0xAA#8])).keyC = (machine 9#16 (telemetryFields ++ [0x55#8])).keyC ∧
    (machine 0#16 (telemetryFields ++ [0xAA#8])).keyV = (machine 9#16 (telemetryFields ++ [0x55#8])).keyV ∧
    ∀ i, i < reservedStart .telemetry →
      (machine 0#16 (telemetryFields ++ [0xAA#8])).byte i = (machine 9#16 (telemetryFields ++ [0x55#8])).byte i := by
  decide +kernel

theorem witness_RecvRejectsAWrongLength :
    (machine 31#16 []).len ≠ 32#16 ∧ (machine 33#16 []).len ≠ 32#16 ∧ (machine 0#16 []).len ≠ 32#16 := by decide

/-- LEN = 32 with a frame whose checksums are equal (V-CODEC-2), so that the clause on BUF has its case. -/
theorem witness_RecvValidatesTheFrame :
    (machine 32#16 telemetryFrame).len = 32#16 ∧
    checksum32 (zeroedByte 30 (decryptedByte keyK (machine 32#16 telemetryFrame).byte)) =
      decryptedByte keyK (machine 32#16 telemetryFrame).byte 31 ++ decryptedByte keyK (machine 32#16 telemetryFrame).byte 30 := by
  decide +kernel

/-- Two endpoints that share KEYC, and the frame of V-CODEC-1 at the receiver. -/
theorem witness_PacketRoundTrip :
    ({ machine 0#16 telemetryFields with role := .vehicle } : State).keyOf (peer .vehicle) =
      (machine 32#16 telemetryFrame).keyOf (machine 32#16 telemetryFrame).role ∧
    (machine 32#16 telemetryFrame).len = 32#16 ∧
    leads (exec (.send .telemetry) { machine 0#16 telemetryFields with role := .vehicle })
      (fun t => (List.range 32).all fun i => (machine 32#16 telemetryFrame).byte i == t.byte i) = true := by decide +kernel

end Sys2Proof.Tests
end

section
/-! SUPPORT. The decoder, the encoder and the opcode map (R50..R55): the decoder inverts the encoder, and a row of the map hits
exactly the encodings of the instructions with its mnemonic. -/

namespace Sys2Proof

/-! ## The decoder against the fields of an instruction -/

theorem Role.bit_ofBit (b : BitVec 1) : (Role.ofBit b).bit = b := by
  rcases BitVec.eq_zero_or_eq_one b with rfl | rfl <;> rfl

theorem PacketType.bit_ofBit (b : BitVec 1) : (PacketType.ofBit b).bit = b := by
  rcases BitVec.eq_zero_or_eq_one b with rfl | rfl <;> rfl

/-- The fields of a command of format N (R51). -/
theorem decodeN_eq_command {c : CommandWord} {j i : Instr} (h : decodeN c j = .command i) :
    c = ⟨c.op, 0#1, 0#1, 0#26⟩ ∧ i = j := by
  obtain ⟨op, ksel, pt, z⟩ := c
  unfold decodeN at h
  split at h
  · rename_i hz
    obtain ⟨rfl, rfl, rfl⟩ := hz
    cases h
    exact ⟨rfl, rfl⟩
  · cases h

/-- The fields of a command of format K (R51). -/
theorem decodeK_eq_command {c : CommandWord} {f : Role → Instr} {i : Instr} (h : decodeK c f = .command i) :
    ∃ r : Role, c = ⟨c.op, r.bit, 0#1, 0#26⟩ ∧ i = f r := by
  obtain ⟨op, ksel, pt, z⟩ := c
  unfold decodeK at h
  split at h
  · rename_i hz
    obtain ⟨rfl, rfl⟩ := hz
    cases h
    exact ⟨Role.ofBit ksel, by rw [Role.bit_ofBit], rfl⟩
  · cases h

/-- The fields of a command of format P (R51). -/
theorem decodeP_eq_command {c : CommandWord} {f : PacketType → Instr} {i : Instr} (h : decodeP c f = .command i) :
    ∃ p : PacketType, c = ⟨c.op, 0#1, p.bit, 0#26⟩ ∧ i = f p := by
  obtain ⟨op, ksel, pt, z⟩ := c
  unfold decodeP at h
  split at h
  · rename_i hz
    obtain ⟨rfl, rfl⟩ := hz
    cases h
    exact ⟨PacketType.ofBit pt, by rw [PacketType.bit_ofBit], rfl⟩
  · cases h

/-- The fields an instruction is decoded from are its own (R52, R54). -/
theorem CommandWord.eq_fields_of_decode {c : CommandWord} {i : Instr} (h : c.decode = .command i) : c = i.fields := by
  have op_eq {n : BitVec 4} (hn : c.op.toNat = n.toNat) : c.op = n := BitVec.eq_of_toNat_eq hn
  unfold CommandWord.decode at h
  split at h
  next hop => obtain ⟨hc, rfl⟩ := decodeN_eq_command h; rw [hc, op_eq (n := 0#4) hop]; rfl
  next hop => obtain ⟨hc, rfl⟩ := decodeN_eq_command h; rw [hc, op_eq (n := 1#4) hop]; rfl
  next hop => obtain ⟨r, hc, rfl⟩ := decodeK_eq_command h; rw [hc, op_eq (n := 2#4) hop]; rfl
  next hop => obtain ⟨r, hc, rfl⟩ := decodeK_eq_command h; rw [hc, op_eq (n := 3#4) hop]; rfl
  next hop => obtain ⟨r, hc, rfl⟩ := decodeK_eq_command h; rw [hc, op_eq (n := 4#4) hop]; rfl
  next hop => obtain ⟨r, hc, rfl⟩ := decodeK_eq_command h; rw [hc, op_eq (n := 5#4) hop]; rfl
  next hop => obtain ⟨p, hc, rfl⟩ := decodeP_eq_command h; rw [hc, op_eq (n := 6#4) hop]; rfl
  next hop => obtain ⟨p, hc, rfl⟩ := decodeP_eq_command h; rw [hc, op_eq (n := 7#4) hop]; rfl
  next => cases h

/-! ## The decoder against the encoder -/

/-- A word is made of its fields (R50). -/
theorem CommandWord.toWord_ofWord (w : Word) : (CommandWord.ofWord w).toWord = w := by
  simp only [CommandWord.toWord, CommandWord.ofWord]
  rw [BitVec.extractLsb'_append_extractLsb'_eq_extractLsb' (show 6 = 5 + 1 from rfl),
    BitVec.extractLsb'_append_extractLsb'_eq_extractLsb' (show 5 = 4 + 1 from rfl),
    BitVec.extractLsb'_append_extractLsb'_eq_extractLsb' (show 4 = 0 + 4 from rfl)]
  exact BitVec.extractLsb'_eq_self

@[simp] theorem decode_encode (i : Instr) : decode (encode i) = .command i := by
  cases i with
  | clr | crc => rfl
  | encb r | decb r | encbuf r | decbuf r => cases r <;> rfl
  | send p | recv p => cases p <;> rfl

/-- The words that decode to an instruction (R54, R55): its encoding, and no other. -/
theorem decode_eq_command_iff {w : Word} {i : Instr} : decode w = .command i ↔ w = encode i := by
  constructor
  · intro h
    rw [← CommandWord.toWord_ofWord w, CommandWord.eq_fields_of_decode h, encode]
  · rintro rfl
    exact decode_encode i

/-- A word is Illegal exactly when it encodes no instruction. -/
theorem decode_illegal_iff {w : Word} : (∃ why, decode w = .illegal why) ↔ ∀ i, w ≠ encode i := by
  simp only [ne_eq, ← decode_eq_command_iff]
  cases decode w <;> simp

/-! ## The rows of the opcode map -/

/-- The words that hit a row with every bit fixed. -/
theorem OpcodeRow.eq_of_hits {r : OpcodeRow} {w : Word} (hmask : r.mask = BitVec.allOnes 32) (h : r.hits w = true) :
    w = r.matchWord := by
  rwa [OpcodeRow.hits, hmask, BitVec.and_allOnes, beq_iff_eq] at h

/-- The words that hit a row with bit `k` alone left free. -/
theorem OpcodeRow.eq_or_eq_of_hits {r : OpcodeRow} {w : Word} (k : Nat) (hmask : r.mask = ~~~(BitVec.twoPow 32 k))
    (h : r.hits w = true) : w = r.matchWord ∨ w = r.matchWord ||| BitVec.twoPow 32 k := by
  have hfixed : w &&& ~~~(BitVec.twoPow 32 k) = r.matchWord := by simpa [OpcodeRow.hits, hmask] using h
  have hsplit : w = (w &&& ~~~(BitVec.twoPow 32 k)) ||| (w &&& BitVec.twoPow 32 k) := by
    rw [← BitVec.and_or_distrib_left, BitVec.or_comm, BitVec.or_not_self, BitVec.and_allOnes]
  rw [hfixed, BitVec.and_twoPow] at hsplit
  split at hsplit
  · exact .inr hsplit
  · exact .inl (by simpa using hsplit)

/-- A word that hits a row with bit `k` alone left free encodes one of the two instructions `f a` and `f b` of that row. -/
theorem OpcodeRow.exists_encode_of_hits_freeBit {α : Type} {r : OpcodeRow} {w : Word} (k : Nat) (f : α → Instr) (a b : α)
    (hmask : r.mask = ~~~(BitVec.twoPow 32 k)) (ha : r.matchWord = encode (f a))
    (hb : r.matchWord ||| BitVec.twoPow 32 k = encode (f b)) (hname : ∀ x, (f x).mnemonic = r.mnemonic)
    (h : r.hits w = true) : ∃ i, w = encode i ∧ i.mnemonic = r.mnemonic := by
  rcases OpcodeRow.eq_or_eq_of_hits k hmask h with hw | hw
  · exact ⟨f a, hw.trans ha, hname a⟩
  · exact ⟨f b, hw.trans hb, hname b⟩

/-- A word that a row of the opcode map hits encodes an instruction of that row (R54). -/
theorem exists_encode_of_hits {r : OpcodeRow} {w : Word} (hr : r ∈ opcodeMap) (h : r.hits w = true) :
    ∃ i, w = encode i ∧ i.mnemonic = r.mnemonic := by
  simp only [opcodeMap, List.mem_cons, List.not_mem_nil, or_false] at hr
  rcases hr with rfl | rfl | rfl | rfl | rfl | rfl | rfl | rfl
  · exact ⟨.clr, OpcodeRow.eq_of_hits rfl h, rfl⟩
  · exact ⟨.crc, OpcodeRow.eq_of_hits rfl h, rfl⟩
  · exact OpcodeRow.exists_encode_of_hits_freeBit 4 .encb .controller .vehicle rfl rfl rfl (fun _ => rfl) h
  · exact OpcodeRow.exists_encode_of_hits_freeBit 4 .decb .controller .vehicle rfl rfl rfl (fun _ => rfl) h
  · exact OpcodeRow.exists_encode_of_hits_freeBit 4 .encbuf .controller .vehicle rfl rfl rfl (fun _ => rfl) h
  · exact OpcodeRow.exists_encode_of_hits_freeBit 4 .decbuf .controller .vehicle rfl rfl rfl (fun _ => rfl) h
  · exact OpcodeRow.exists_encode_of_hits_freeBit 5 .send .telemetry .command rfl rfl rfl (fun _ => rfl) h
  · exact OpcodeRow.exists_encode_of_hits_freeBit 5 .recv .telemetry .command rfl rfl rfl (fun _ => rfl) h

/-- Every instruction has a row of its mnemonic, which its encoding hits (R54). -/
theorem exists_row_hits_encode (i : Instr) : ∃ r ∈ opcodeMap, r.hits (encode i) = true ∧ r.mnemonic = i.mnemonic := by
  cases i with
  | clr | crc => decide
  | encb r | decb r | encbuf r | decbuf r => cases r <;> decide
  | send p | recv p => cases p <;> decide

/-- A word is Illegal exactly when no row of the opcode map hits it (R55). -/
theorem decode_illegal_iff_no_row_hits {w : Word} :
    (∃ why, decode w = .illegal why) ↔ ∀ r ∈ opcodeMap, r.hits w = false := by
  rw [decode_illegal_iff]
  constructor
  · intro hw r hr
    by_contra hit
    obtain ⟨i, hi, -⟩ := exists_encode_of_hits hr (Bool.eq_true_of_not_eq_false hit)
    exact hw i hi
  · rintro hno i rfl
    obtain ⟨r, hr, hit, -⟩ := exists_row_hits_encode i
    simp [hno r hr] at hit

/-! ## The selector bits of an encoding -/

/-- KSEL of a command of format K is bit 4 of its word (R50, R51). -/
theorem ksel_iff_bit_four {w : Word} {k : Role}
    (h : w = encode (.encb k) ∨ w = encode (.decb k) ∨ w = encode (.encbuf k) ∨ w = encode (.decbuf k)) :
    k = .vehicle ↔ w.getLsbD 4 = true := by
  rcases h with rfl | rfl | rfl | rfl <;> cases k <;> decide

/-- PT of a command of format P is bit 5 of its word (R50, R51). -/
theorem pt_iff_bit_five {w : Word} {p : PacketType} (h : w = encode (.send p) ∨ w = encode (.recv p)) :
    p = .command ↔ w.getLsbD 5 = true := by
  rcases h with rfl | rfl <;> cases p <;> decide

/-- Settles O3: the decoder inverts the encoder, and the rows of the opcode map hit the encodings of their instructions. -/
theorem decodeFollowsTheOpcodeMap : Obligations.DecodeFollowsTheOpcodeMap := by
  intro w
  simp only [decode_eq_command_iff]
  refine ⟨?_, fun r hr hit => exists_encode_of_hits hr hit, decode_illegal_iff_no_row_hits, fun k => ksel_iff_bit_four,
    fun p => pt_iff_bit_five⟩
  rintro i rfl
  exact exists_row_hits_encode i

end Sys2Proof
end

section
/-! SUPPORT. The write to CMD (R20, R65) and the words that are no command (R56). -/

namespace Sys2Proof.Machine

/-- CMD is reached by an aligned word at its offset (R38, R60). -/
theorem target_cmdOffset : target .w32 cmdOffset = some (.reg .cmd) := by decide

/-- The step on a write to CMD performs what the word decodes to and answers the write done (R65). -/
theorem step_facing_cmdWrite (s : State) (w : Word) (rest : List Input) :
    step (s.facing (cmdWrite w) rest) = answer .done (perform (decode w) (s.setPending rest)) := by
  rw [step_input (rest := rest) rfl]
  simp only [cmdWrite, performInput, performAccess, hostWrite32, target_cmdOffset]
  rfl

/-- The step on a write of an Illegal word to CMD (R56). -/
theorem step_facing_cmdWrite_of_illegal {w : Word} {why : Illegal} (h : decode w = .illegal why) (s : State)
    (rest : List Input) :
    step (s.facing (cmdWrite w) rest) = .next ((s.raise .illegalCommand).answered .done rest) := by
  rw [step_facing_cmdWrite, h]
  rfl

/-- Every encoding is one of the fourteen legal words (R54). -/
theorem encode_mem_legalWords (i : Instr) :
    encode i ∈ [0x00#32, 0x01#32, 0x02#32, 0x12#32, 0x03#32, 0x13#32, 0x04#32, 0x14#32, 0x05#32, 0x15#32, 0x06#32, 0x26#32,
      0x07#32, 0x27#32] := by
  cases i with
  | clr | crc => decide
  | encb r | decb r | encbuf r | decbuf r => cases r <;> decide
  | send p | recv p => cases p <;> decide

/-- Settles O4: a word off the fourteen encodes no instruction, so it is Illegal, and its write only raises ILLEGAL_COMMAND. -/
theorem everyOtherWordOnlyRecordsIllegalCommand : Obligations.EveryOtherWordOnlyRecordsIllegalCommand := by
  intro s w rest hw
  have hnone : ∀ i, w ≠ encode i := by
    rintro i rfl
    exact hw (encode_mem_legalWords i)
  obtain ⟨why, hwhy⟩ := decode_illegal_iff.2 hnone
  exact step_facing_cmdWrite_of_illegal hwhy s rest

end Sys2Proof.Machine
end

section
/-! SUPPORT. The host interface (R59..R64): what an access reaches, and what the step on it does, by what it reaches. -/

namespace Sys2Proof

/-! ## Roles as bits -/

/-- The bit of a role tells whether it is Vehicle (R29). -/
theorem Role.bit_eq_ofBool (r : Role) : r.bit = BitVec.ofBool (r == .vehicle) := by
  cases r <;> rfl

/-- The role that a written word's bit 0 stands for (R18, R29). -/
theorem Role.ofBit_extractLsb'_zero (w : Word) :
    Role.ofBit (w.extractLsb' 0 1) = if w.getLsbD 0 = true then .vehicle else .controller := by
  have hbit : w.extractLsb' 0 1 = BitVec.ofBool (w.getLsbD 0) := by
    ext i hi
    obtain rfl : i = 0 := by omega
    simp
  rw [hbit]
  cases w.getLsbD 0 <;> rfl

end Sys2Proof

namespace Sys2Proof.Machine

/-! ## What an access reaches -/

/-- Rule R60 as a proposition. -/
theorem admitted_iff {w : Width} {off : Offset} : admitted w off = true ↔
    (off.toNat < 0x040 ∧ w = .w32 ∧ off.toNat % 4 = 0) ∨ (0x100 ≤ off.toNat ∧ off.toNat % bytesOf w = 0) := by
  simp [admitted, and_assoc]

/-- An access that is not admitted reaches nothing. -/
theorem target_eq_none_iff {w : Width} {off : Offset} : target w off = none ↔ admitted w off ≠ true := by
  simp [target]

/-- Index `i` of BUF stands at offset 0x100 + `i` (R26, R38). -/
theorem target_bufOffset {w : Width} {i : Nat} (hi : i < 256) (halign : i % bytesOf w = 0) :
    target w (BitVec.ofNat 9 (0x100 + i)) = some (.buf i) := by
  have hoff : (BitVec.ofNat 9 (0x100 + i)).toNat = 0x100 + i := Nat.mod_eq_of_lt (by omega)
  have hadm : admitted w (BitVec.ofNat 9 (0x100 + i)) = true := by
    rw [admitted_iff, hoff]
    exact .inr ⟨by omega, by cases w <;> simp only [bytesOf] at halign ⊢ <;> omega⟩
  rw [target, if_pos hadm, hoff, if_neg (by omega), Nat.add_sub_cancel_left]

/-- The eight key words stand at the offsets from 0x020 on (R25, R38). -/
theorem target_keyWordOffset {i : Nat} (hi : i < 8) : target .w32 (BitVec.ofNat 9 (0x020 + 4 * i)) =
    some (.reg (if i < 4 then .keyC (BitVec.ofNat 2 i) else .keyV (BitVec.ofNat 2 i))) := by
  have hoff : (BitVec.ofNat 9 (0x020 + 4 * i)).toNat = 0x020 + 4 * i := Nat.mod_eq_of_lt (by omega)
  have hadm : admitted .w32 (BitVec.ofNat 9 (0x020 + 4 * i)) = true := by
    rw [admitted_iff, hoff]
    exact .inl ⟨by omega, rfl, by omega⟩
  rw [target, if_pos hadm, hoff, if_pos (by omega), show (0x020 + 4 * i) / 4 = i + 8 by omega, regAt]

/-! ## The step on an access -/

/-- The step on a host access performs it on the machine without that input (R46, R47). -/
theorem step_facing_access (s : State) (a : Access) (rest : List Input) :
    step (s.facing (.access a) rest) = performAccess a (s.setPending rest) := by
  rw [step_input (rest := rest) rfl]
  rfl

/-- An access that reaches nothing is answered BusError and does no more (R61). -/
theorem performAccess_of_target_none {a : Access} (s : State) (h : target (accessWidth a) (accessOffset a) = none) :
    performAccess a s = .next (s.respond .busError) := by
  cases a <;> simp only [accessWidth, accessOffset] at h <;>
    simp [performAccess, hostRead, hostWrite8, hostWrite16, hostWrite32, answer, h]

/-- An access that reaches a register is a word read of it or a word write of it (R60). -/
theorem performAccess_of_target_reg {a : Access} {r : Reg} (s : State)
    (h : target (accessWidth a) (accessOffset a) = some (.reg r)) :
    performAccess a s = .next (s.respond (.value32 (s.readReg r))) ∨
      ∃ v, performAccess a s = answer .done (writeReg r v s) := by
  have hword : accessWidth a = .w32 := by
    rcases target_eq_some h with ⟨-, hw, -, -⟩ | ⟨-, -, ht⟩
    · exact hw
    · cases ht
  cases a with
  | read w off =>
    simp only [accessWidth, accessOffset] at h
    exact .inl (by simp [performAccess_read, hostRead, h])
  | write8 off v => cases hword
  | write16 off v => cases hword
  | write32 off v =>
    simp only [accessWidth, accessOffset] at h
    exact .inr ⟨v, by simp [performAccess, hostWrite32, h]⟩

/-- An access that reaches BUF changes at most BUF, and is not answered BusError (R64). -/
theorem performAccess_of_target_buf {a : Access} {i : Nat} (s : State)
    (h : target (accessWidth a) (accessOffset a) = some (.buf i)) :
    ∃ m r, performAccess a s = .next ((s.setBuf m).respond r) ∧ r ≠ .busError := by
  cases a <;> simp only [accessWidth, accessOffset] at h
  case read w off =>
    exact ⟨s.buf, s.readBuf w i, by simp only [performAccess_read, hostRead, h]; rfl, by cases w <;> simp [State.readBuf]⟩
  case write8 off v => exact ⟨Memory.put s.buf i v, .done, by simp only [performAccess, hostWrite8, h, answer], nofun⟩
  case write16 off v => exact ⟨Memory.write16 s.buf i v, .done, by simp only [performAccess, hostWrite16, h, answer], nofun⟩
  case write32 off v => exact ⟨Memory.write32 s.buf i v, .done, by simp only [performAccess, hostWrite32, h, answer], nofun⟩

/-! ## Writes of the keys -/

/-- Writing a key word's own value changes nothing. -/
theorem Key.setWord_word (k : Key) (i : BitVec 2) : k.setWord i (k.word i) = k := by
  unfold Key.setWord Key.word
  split
  · rfl
  split
  · rfl
  split <;> rfl

/-- A write of a word of KEYC: the word while unlocked, its own old value while locked (R25, R63). -/
theorem writeReg_keyC (i : BitVec 2) (w : Word) (s : State) : writeReg (.keyC i) w s =
    .next { s with keyC := s.keyC.setWord i (if s.klock = true then s.keyC.word i else w) } := by
  by_cases hlock : s.klock = true
  · simp only [writeReg, if_pos hlock, Key.setWord_word]
  · simp only [writeReg, if_neg hlock]

/-- A write of a word of KEYV: the word while unlocked, its own old value while locked (R25, R63). -/
theorem writeReg_keyV (i : BitVec 2) (w : Word) (s : State) : writeReg (.keyV i) w s =
    .next { s with keyV := s.keyV.setWord i (if s.klock = true then s.keyV.word i else w) } := by
  by_cases hlock : s.klock = true
  · simp only [writeReg, if_pos hlock, Key.setWord_word]
  · simp only [writeReg, if_neg hlock]

/-! ## Admission -/

/-- A command completes, and touches neither the inputs to come nor the answers given. -/
theorem exec_keeps_pending_responses (i : Instr) (s : State) :
    ∃ t, exec i s = .next t ∧ t.pending = s.pending ∧ t.responses = s.responses := by
  obtain ⟨u, e, v, hexec, hu⟩ := exec_cases i s
  refine ⟨u.setStatus e v, hexec, ?_⟩
  rcases hu with ⟨rfl, -⟩ | ⟨c, rfl, -⟩ | ⟨b, rfl, -⟩ | ⟨f, -, rfl, -⟩ | ⟨pt, rfl, -⟩ | ⟨pt, rfl, -⟩ <;> simp [received]

/-- A register write completes, and touches neither the inputs to come nor the answers given. -/
theorem writeReg_keeps_pending_responses (r : Reg) (w : Word) (s : State) :
    ∃ t, writeReg r w s = .next t ∧ t.pending = s.pending ∧ t.responses = s.responses := by
  cases r
  case cmd =>
    simp only [writeReg]
    cases decode w with
    | command i => exact exec_keeps_pending_responses i s
    | illegal why => exact ⟨_, rfl, rfl, rfl⟩
  case keyC i => exact ⟨_, writeReg_keyC i w s, rfl, rfl⟩
  case keyV i => exact ⟨_, writeReg_keyV i w s, rfl, rfl⟩
  all_goals exact ⟨_, rfl, rfl, rfl⟩

/-- An access that reaches something is answered, and not with BusError (R60). -/
theorem performAccess_of_target_some {a : Access} {x : Target} (s : State)
    (h : target (accessWidth a) (accessOffset a) = some x) :
    ∃ t r, performAccess a s = .next t ∧ t.pending = s.pending ∧ t.responses = r :: s.responses ∧ r ≠ .busError := by
  cases x with
  | reg r =>
    rcases performAccess_of_target_reg s h with hread | ⟨v, hwrite⟩
    · exact ⟨_, _, hread, rfl, rfl, nofun⟩
    · obtain ⟨t, ht, hp, hr⟩ := writeReg_keeps_pending_responses r v s
      exact ⟨t.respond .done, .done, by rw [hwrite, ht, answer], hp, by simp [hr], nofun⟩
  | buf i =>
    obtain ⟨m, r, hbuf, hr⟩ := performAccess_of_target_buf s h
    exact ⟨_, r, hbuf, rfl, rfl, hr⟩

/-- Settles O8: an access is admitted exactly when it reaches something. -/
theorem onlyAdmittedAccessesActAndOthersAnswerBusError :
    Obligations.OnlyAdmittedAccessesActAndOthersAnswerBusError := by
  intro s a rest
  dsimp only
  rw [← admitted_iff, step_facing_access]
  constructor
  · intro hadm
    obtain ⟨x, hx⟩ := Option.ne_none_iff_exists'.1 fun hnone => target_eq_none_iff.1 hnone hadm
    exact performAccess_of_target_some (s.setPending rest) hx
  · intro hadm
    exact performAccess_of_target_none (s.setPending rest) (target_eq_none_iff.2 hadm)

/-! ## BUF accesses -/

section Buf

variable {w : Width} {off : Offset} {i : Nat} (s : State) (rest : List Input)

/-- The step on a read that reaches BUF (R64). -/
theorem step_facing_readBuf (h : target w off = some (.buf i)) :
    step (s.facing (.access (.read w off)) rest) = .next (s.answered (s.readBuf w i) rest) := by
  rw [step_facing_access, performAccess_read, hostRead, h]
  cases w <;> rfl

/-- The step on a byte write that reaches BUF (R64). -/
theorem step_facing_writeBuf8 (v : Byte) (h : target .w8 off = some (.buf i)) :
    step (s.facing (.access (.write8 off v)) rest) = .next ((s.setBuf (Memory.put s.buf i v)).answered .done rest) := by
  simp only [step_facing_access, performAccess, hostWrite8, h]
  rfl

/-- The step on a halfword write that reaches BUF (R64). -/
theorem step_facing_writeBuf16 (v : Half) (h : target .w16 off = some (.buf i)) :
    step (s.facing (.access (.write16 off v)) rest) = .next ((s.setBuf (Memory.write16 s.buf i v)).answered .done rest) := by
  simp only [step_facing_access, performAccess, hostWrite16, h]
  rfl

/-- The step on a word write that reaches BUF (R64). -/
theorem step_facing_writeBuf32 (v : Word) (h : target .w32 off = some (.buf i)) :
    step (s.facing (.access (.write32 off v)) rest) = .next ((s.setBuf (Memory.write32 s.buf i v)).answered .done rest) := by
  simp only [step_facing_access, performAccess, hostWrite32, h]
  rfl

end Buf

/-- Settles O9: an aligned access at offset 0x100 + `i` reaches BUF from index `i` on, and lies inside BUF whole. -/
theorem bufferAccessesReadAndWriteTheirBytes : Obligations.BufferAccessesReadAndWriteTheirBytes := by
  intro s rest i hi
  refine ⟨?_, fun h2 => ?_, fun h4 => ?_, fun v => ?_, fun v h2 => ?_, fun v h4 => ?_⟩
  · exact step_facing_readBuf s rest (target_bufOffset hi (Nat.mod_one i))
  · exact step_facing_readBuf s rest (target_bufOffset hi h2)
  · exact step_facing_readBuf s rest (target_bufOffset hi h4)
  · exact ⟨_, step_facing_writeBuf8 s rest v (target_bufOffset hi (Nat.mod_one i)), fun j => byte_put _ _ _ _ _ hi⟩
  · exact ⟨_, step_facing_writeBuf16 s rest v (target_bufOffset hi h2), fun j => byte_write16 _ _ _ _ _ (by omega)⟩
  · exact ⟨_, step_facing_writeBuf32 s rest v (target_bufOffset hi h4), fun j => byte_write32 _ _ _ _ _ (by omega)⟩

/-! ## Register accesses -/

section Reg

variable {off : Offset} {r : Reg} (s : State) (rest : List Input)

/-- The step on a read of a register (R62). -/
theorem step_facing_readReg (h : target .w32 off = some (.reg r)) :
    step (s.facing (.access (.read .w32 off)) rest) = .next (s.answered (.value32 (s.readReg r)) rest) := by
  rw [step_facing_access, performAccess_read, hostRead, h]
  cases r <;> rfl

/-- The step on a write of a register (R63). -/
theorem step_facing_writeReg (w : Word) (h : target .w32 off = some (.reg r)) :
    step (s.facing (.access (.write32 off w)) rest) = answer .done (writeReg r w (s.setPending rest)) := by
  simp only [step_facing_access, performAccess, hostWrite32, h]

/-- The step on a write of a word of KEYC (R25, R63). -/
theorem step_facing_writeKeyC {i : BitVec 2} (w : Word) (h : target .w32 off = some (.reg (.keyC i))) :
    step (s.facing (.access (.write32 off w)) rest) =
      .next ({ s with keyC := s.keyC.setWord i (if s.klock = true then s.keyC.word i else w) }.answered .done rest) := by
  rw [step_facing_writeReg s rest w h, writeReg_keyC]
  rfl

/-- The step on a write of a word of KEYV (R25, R63). -/
theorem step_facing_writeKeyV {i : BitVec 2} (w : Word) (h : target .w32 off = some (.reg (.keyV i))) :
    step (s.facing (.access (.write32 off w)) rest) =
      .next ({ s with keyV := s.keyV.setWord i (if s.klock = true then s.keyV.word i else w) }.answered .done rest) := by
  rw [step_facing_writeReg s rest w h, writeReg_keyV]
  rfl

/-- The step on a write of CTRL (R18, R63). -/
theorem step_facing_writeCtrl (w : Word) :
    step (s.facing (.access (.write32 0x000#9 w)) rest) = .next ({ s with
      role := if s.klock = true then s.role else if w.getLsbD 0 = true then .vehicle else .controller
      klock := if w.getLsbD 1 = true then true else s.klock }.answered .done rest) := by
  have hlock : (if w.getLsbD 1 = true then true else s.klock) = (s.klock || w.getLsbD 1) := by
    cases w.getLsbD 1 <;> simp
  rw [step_facing_writeReg s rest w (r := .ctrl) rfl, hlock, ← Role.ofBit_extractLsb'_zero]
  rfl

end Reg

/-- Settles O6: each offset's register, and the word it reads as. -/
theorem registerReadsAnswerTheirValue : Obligations.RegisterReadsAnswerTheirValue := by
  intro s rest
  refine ⟨?_, ?_, ?_, ?_, ?_, ?_, ?_, ?_, fun i hi => ?_⟩
  · rw [← Role.bit_eq_ofBool]
    exact step_facing_readReg s rest (r := .ctrl) rfl
  · exact step_facing_readReg s rest (r := .status) rfl
  · exact step_facing_readReg s rest (r := .cmd) rfl
  · exact step_facing_readReg s rest (r := .len) rfl
  · exact step_facing_readReg s rest (r := .crc) rfl
  · exact step_facing_readReg s rest (r := .rxcrc) rfl
  · exact step_facing_readReg s rest (r := .v0) rfl
  · exact step_facing_readReg s rest (r := .v1) rfl
  · refine (step_facing_readReg s rest (target_keyWordOffset hi)).trans ?_
    split <;> rfl

/-- Settles O7: each offset's register, and what its write does. -/
theorem registerWritesHaveTheirEffect : Obligations.RegisterWritesHaveTheirEffect := by
  intro s w rest
  refine ⟨?_, ?_, ?_, ?_, ?_, ?_, ?_, ?_, ?_, ?_, ?_, ?_, ?_, ?_, ?_, ?_⟩
  · exact step_facing_writeCtrl s rest w
  · exact step_facing_writeReg s rest w (r := .status) rfl
  · exact step_facing_cmdWrite s w rest
  · exact step_facing_writeReg s rest w (r := .len) rfl
  · exact step_facing_writeReg s rest w (r := .crc) rfl
  · exact step_facing_writeReg s rest w (r := .rxcrc) rfl
  · exact step_facing_writeReg s rest w (r := .v0) rfl
  · exact step_facing_writeReg s rest w (r := .v1) rfl
  · exact step_facing_writeKeyC s rest (i := 0#2) w rfl
  · exact step_facing_writeKeyC s rest (i := 1#2) w rfl
  · exact step_facing_writeKeyC s rest (i := 2#2) w rfl
  · exact step_facing_writeKeyC s rest (i := 3#2) w rfl
  · exact step_facing_writeKeyV s rest (i := 0#2) w rfl
  · exact step_facing_writeKeyV s rest (i := 1#2) w rfl
  · exact step_facing_writeKeyV s rest (i := 2#2) w rfl
  · exact step_facing_writeKeyV s rest (i := 3#2) w rfl

/-! ## The command CLR -/

/-- Settles O26: the word of CLR is 0, and CLR is the end of a command with nothing before it. -/
theorem clrClearsStatusOnly : Obligations.ClrClearsStatusOnly :=
  ⟨fun _ => decode_eq_command_iff, fun _ => rfl⟩

end Sys2Proof.Machine
end

section
/-! SUPPORT. The Checksum Engine (R69..R74): a byte enters as eight shift steps, and what the command CRC does by its LEN. -/

namespace Sys2Proof.Machine

/-! ## crc16 -/

/-- One shift step, with the polynomial written out (R69). -/
theorem crcShift_one :
    crcShift 1 = fun r : Half => if r.getLsbD 15 = true then (r <<< 1) ^^^ 0x1021#16 else r <<< 1 := rfl

/-- `n` shift steps are one shift step `n` times. -/
theorem crcShift_eq_iterate (n : Nat) : crcShift n = (crcShift 1)^[n] := by
  induction n with
  | zero => rfl
  | succ n ih =>
    funext r
    rw [crcShift_succ, ih, Function.iterate_succ_apply]

/-- Settles O27: one more byte is one more `crcByte`, whose shift is eight single steps. -/
theorem crc16ShiftsInByteByByte : Obligations.Crc16ShiftsInByteByByte := by
  refine ⟨crc16_nil, fun bs b => ?_⟩
  rw [crc16_append_singleton, crcByte, crcShift_eq_iterate, crcShift_one]

/-! ## The command CRC -/

/-- The checksum CRC writes, over the bytes of BUF below LEN (R70, R74). -/
theorem exec_crc_of_le {s : State} (h : s.len.toNat ≤ 256) :
    exec .crc s = .next ((s.setCrc (crc16 ((List.range s.len.toNat).map s.byte))).setStatus .none false) := by
  have hlen : ¬ Config.bufSize < s.len.toNat := Nat.not_lt.2 h
  rw [exec, execCrc, if_neg hlen, bytes_eq_map]
  rfl

/-- The refusal of a LEN above BUF's size, before anything is written (R74). -/
theorem exec_crc_of_lt {s : State} (h : 256 < s.len.toNat) : exec .crc s = .next (s.raise .preconditionViolation) := by
  have hlen : Config.bufSize < s.len.toNat := h
  rw [exec, execCrc, if_pos hlen]

/-- Settles O30: the word of CRC is its encoding, and LEN decides between the checksum and the refusal. -/
theorem crcWritesTheChecksumOfTheBuffer : Obligations.CrcWritesTheChecksumOfTheBuffer :=
  ⟨fun _ => decode_eq_command_iff, fun _ => ⟨exec_crc_of_le, exec_crc_of_lt⟩⟩

end Sys2Proof.Machine
end

section
/-! SUPPORT. The commands of the Block Cipher Engine (R84..R87): the operand block, and BUF by the length in LEN. -/

namespace Sys2Proof.Machine

/-! ## ENCB and DECB -/

/-- A block put in V0 and V1 and a command completed, as the fields this changes (R65). -/
theorem State.setV_complete (s : State) (b : Block) :
    (s.setV b).complete = { s with v0 := b.v0, v1 := b.v1, err := .none, valid := false } := rfl

/-- ENCB, with `r` the operand block's encryption under the key that KSEL selects (R84). The result has a name of its own so that no
comparison of states unrolls the rounds. -/
theorem exec_encb_of_eq {ksel : Role} {s : State} {r : Block} (hr : encryptBlock (s.keyOf ksel) s.vBlock = r) :
    exec (.encb ksel) s = .next { s with v0 := r.v0, v1 := r.v1, err := .none, valid := false } := by
  rw [exec, execEncb, hr, State.setV_complete]

/-- DECB, with `r` the operand block's decryption under the key that KSEL selects (R85). -/
theorem exec_decb_of_eq {ksel : Role} {s : State} {r : Block} (hr : decryptBlock (s.keyOf ksel) s.vBlock = r) :
    exec (.decb ksel) s = .next { s with v0 := r.v0, v1 := r.v1, err := .none, valid := false } := by
  rw [exec, execDecb, hr, State.setV_complete]

/-- Settles O34: the word of ENCB is its encoding, and its one arm ciphers the block in V0 and V1 with the key of each role. -/
theorem encbEncryptsTheOperandBlock : Obligations.EncbEncryptsTheOperandBlock := by
  intro ksel s r
  cases ksel with
  | controller | vehicle => exact ⟨fun _ => decode_eq_command_iff, exec_encb_of_eq (r := r) rfl⟩

/-- Settles O35: the word of DECB is its encoding, and its one arm deciphers the block in V0 and V1 with the key of each role. -/
theorem decbDecryptsTheOperandBlock : Obligations.DecbDecryptsTheOperandBlock := by
  intro ksel s r
  cases ksel with
  | controller | vehicle => exact ⟨fun _ => decode_eq_command_iff, exec_decb_of_eq (r := r) rfl⟩

/-! ## ENCBUF and DECBUF -/

/-- What ENCBUF and DECBUF have in common (R86, R87): the length check, then `cryptBuffer` (R83) by the block function `f`. -/
def cryptBufBy (f : Block → Block) (s : State) : Host.Outcome State Fault Refusal :=
  if badCryptLength s.len.toNat then .next (s.raise .preconditionViolation)
  else .next (s.setBuf (Memory.crypt s.resets f s.buf s.len.toNat)).complete

theorem exec_encbuf (ksel : Role) (s : State) : exec (.encbuf ksel) s = cryptBufBy (encryptBlock (s.keyOf ksel)) s := rfl

theorem exec_decbuf (ksel : Role) (s : State) : exec (.decbuf ksel) s = cryptBufBy (decryptBlock (s.keyOf ksel)) s := rfl

section Crypt

variable (f : Block → Block) {s : State}

/-- A bad length is refused before any byte is written (R107). -/
theorem cryptBufBy_of_badLength (h : s.len.toNat % 8 ≠ 0 ∨ 256 < s.len.toNat) :
    cryptBufBy f s = .next (s.raise .preconditionViolation) :=
  if_pos ((badCryptLength_iff _).2 h)

/-- A whole number of blocks that fits BUF is ciphered. -/
theorem cryptBufBy_of_goodLength (h8 : s.len.toNat % 8 = 0) (hle : s.len.toNat ≤ 256) :
    cryptBufBy f s = .next ((s.setBuf (Memory.crypt s.resets f s.buf s.len.toNat)).setStatus .none false) := by
  have hgood : ¬ badCryptLength s.len.toNat = true := by
    rw [badCryptLength_iff]
    omega
  exact if_neg hgood

/-- The bytes after a ciphering: each block below LEN by itself, every byte from LEN on as it was (R83). -/
theorem exists_buf_of_cryptBufBy (h8 : s.len.toNat % 8 = 0) (hle : s.len.toNat ≤ 256) :
    ∃ m, cryptBufBy f s = .next ((s.setBuf m).setStatus .none false) ∧
      (∀ b, b < s.len.toNat / 8 → blockOf (Memory.byte s.resets m) b = f (blockOf s.byte b)) ∧
      ∀ i, s.len.toNat ≤ i → Memory.byte s.resets m i = s.byte i :=
  ⟨_, cryptBufBy_of_goodLength f h8 hle, fun _ hb => block_crypt _ _ _ _ _ hle hb,
    fun _ hi => byte_crypt_of_le _ _ _ _ _ hle hi⟩

end Crypt

/-- Settles O36: ENCBUF is `cryptBufBy` by the encryption with the selected key. -/
theorem encbufEncryptsTheBufferBlockByBlock : Obligations.EncbufEncryptsTheBufferBlockByBlock := by
  intro ksel s n k
  rw [exec_encbuf]
  cases ksel with
  | controller | vehicle =>
    exact ⟨fun _ => decode_eq_command_iff, cryptBufBy_of_badLength _, exists_buf_of_cryptBufBy (encryptBlock k)⟩

/-- Settles O37: DECBUF is `cryptBufBy` by the decryption with the selected key. -/
theorem decbufDecryptsTheBufferBlockByBlock : Obligations.DecbufDecryptsTheBufferBlockByBlock := by
  intro ksel s n k
  rw [exec_decbuf]
  cases ksel with
  | controller | vehicle =>
    exact ⟨fun _ => decode_eq_command_iff, cryptBufBy_of_badLength _, exists_buf_of_cryptBufBy (decryptBlock k)⟩

end Sys2Proof.Machine
end

section
/-! SUPPORT. SEND (R94..R96): the frame it leaves in BUF, and the command as the fields it changes. -/

namespace Sys2Proof.Machine

/-- SEND's key by role (R94): the peer's. -/
theorem State.outKey_eq (s : State) : s.outKey = match s.role with | .controller => s.keyV | .vehicle => s.keyC := by
  unfold State.outKey peer
  cases s.role <;> rfl

/-- What SEND leaves in BUF (R96): the plaintext packet with its four blocks encrypted by the peer's key. -/
def sentFrame (pt : PacketType) (s : State) : Memory :=
  Memory.crypt s.resets (encryptBlock s.outKey) (plainPacket pt s.resets s.buf) 32

/-- SEND's updates of the state, as the fields they change (R65, R96). -/
theorem State.sendUpdates (s : State) (m : Memory) (c n : Half) :
    (((s.setBuf m).setCrc c).setLen n).setStatus .none false =
      { s with buf := m, crc := c, len := n, err := .none, valid := false } := rfl

/-- SEND from any state, by the fields it changes (R96). -/
theorem exec_send (pt : PacketType) (s : State) :
    exec (.send pt) s = .next { s with
      buf := sentFrame pt s, crc := checksum32 (zeroedByte (reservedStart pt) s.byte), len := 32#16,
      err := .none, valid := false } := by
  rw [exec, execSend_eq, sendChecksum_eq, State.sendUpdates]
  rfl

/-- Each block of the frame is the encryption of the plaintext packet's block (R83, R96). -/
theorem block_sentFrame (pt : PacketType) (s : State) {b : Nat} (hb : b < 4) :
    blockOf (Memory.byte s.resets (sentFrame pt s)) b =
      encryptBlock s.outKey (blockOf (sentByte (reservedStart pt) s.byte) b) := by
  have hplain : Memory.byte s.resets (plainPacket pt s.resets s.buf) = sentByte (reservedStart pt) s.byte :=
    funext (byte_plainPacket pt s.resets s.buf)
  rw [sentFrame, block_crypt _ _ _ _ _ (by omega) hb, hplain]

/-- The plaintext packet ends at byte 32 (R88, R96). -/
theorem sentByte_of_le (r : Nat) (p : Nat → Byte) {i : Nat} (hi : 32 ≤ i) : sentByte r p i = p i := by
  unfold sentByte withChecksum zeroedByte
  rw [if_neg (by omega), if_neg (by omega), if_neg (by omega)]

/-- SEND touches no byte of BUF from 32 on (R96). -/
theorem byte_sentFrame_of_le (pt : PacketType) (s : State) {i : Nat} (hi : 32 ≤ i) :
    Memory.byte s.resets (sentFrame pt s) i = s.byte i := by
  rw [sentFrame, byte_crypt_of_le _ _ _ _ _ (by omega) hi, byte_plainPacket, sentByte_of_le _ _ hi]
  rfl

/-- Settles O41: the words of SEND are its encodings, and the frame it leaves is the plaintext packet encrypted block by block. -/
theorem sendPreparesTheFrame : Obligations.SendPreparesTheFrame := by
  intro pt s r k
  have hkey : s.outKey = k := s.outKey_eq
  have hres : reservedStart pt = r := by cases pt <;> rfl
  refine ⟨fun w => ?_, sentFrame pt s, hres ▸ exec_send pt s, fun b hb => ?_, fun i hi => byte_sentFrame_of_le pt s hi⟩
  · cases pt with
    | telemetry | command => exact decode_eq_command_iff
  · rw [block_sentFrame pt s hb, hkey, hres]

end Sys2Proof.Machine
end

section
/-! SUPPORT. RECV of a frame of the wrong length (R97, R102): the refusal, before anything is decrypted. -/

namespace Sys2Proof.Machine

/-- A command's `raise`, as the fields it changes (R12, R108). -/
theorem State.raise_eq_update (s : State) (e : ErrCode) : s.raise e = { s with err := e, valid := false } := rfl

/-- A LEN other than the packet's length is recorded before BUF is touched (R97, R102). -/
theorem exec_recv_of_len_ne {pt : PacketType} {s : State} (h : s.len.toNat ≠ plen pt) :
    exec (.recv pt) s = .next (s.raise .frameLengthMismatch) := by
  rw [exec, execRecv, if_pos h]

/-- Settles O43: both packet types are 32 bytes long, so any other LEN is refused. -/
theorem recvRejectsAWrongLength : Obligations.RecvRejectsAWrongLength := by
  intro pt s h
  have hlen : s.len.toNat ≠ plen pt := by
    rw [plen_eq]
    exact BitVec.toNat_ne.1 h
  rw [exec_recv_of_len_ne hlen, State.raise_eq_update]

end Sys2Proof.Machine
end

section
/-! SUPPORT. The encoding (R54, R55), from the decoder's inverse. -/

namespace Sys2Proof

/-- Settles O2: the words that decode to an instruction are its encoding alone. -/
theorem decodeAndEncodeAgree : Obligations.DecodeAndEncodeAgree :=
  ⟨decode_encode, fun _ _ => decode_eq_command_iff.1⟩

/-- Settles O1: each of the fourteen words is the encoding of its command. -/
theorem legalWordsDecodeToTheirCommand : Obligations.LegalWordsDecodeToTheirCommand := by
  unfold Obligations.LegalWordsDecodeToTheirCommand
  simp only [decode_eq_command_iff]
  decide

end Sys2Proof
end

section
/-! SUPPORT. The Checksum Engine (R69..R74): what one byte leaves in the register, and what a sequence does to two registers. -/

namespace Sys2Proof.Machine

/-! ## The residue of an appended checksum -/

/-- Shift steps whose high bits are all clear only shift (R69). -/
theorem crcShift_of_lt (n : Nat) {r : Half} (h : r.toNat * 2 ^ n < 2 ^ 16) : crcShift n r = r <<< n := by
  induction n generalizing r with
  | zero => rw [crcShift, BitVec.shiftLeft_zero]
  | succ n ih =>
    have hpow : r.toNat * 2 ^ (n + 1) = r.toNat * 2 * 2 ^ n := by ring
    have hone : r.toNat * 2 ≤ r.toNat * 2 * 2 ^ n := Nat.le_mul_of_pos_right _ (Nat.two_pow_pos n)
    have htop : ¬ r.getLsbD 15 = true := by
      rw [BitVec.getLsbD, Nat.testBit_lt_two_pow (by omega)]
      decide
    have hshl : (r <<< 1).toNat = r.toNat * 2 := by
      rw [BitVec.toNat_shiftLeft, Nat.shiftLeft_eq, Nat.pow_one, Nat.mod_eq_of_lt (by omega)]
    rw [crcShift, if_neg htop, ih (by rw [hshl]; omega), Nat.add_comm n 1, BitVec.shiftLeft_add]

/-- A byte in the low octet is shifted to the high octet by eight steps, with no exclusive or. -/
theorem crcShift_eight_byte (b : Byte) : crcShift 8 (b.setWidth 16) = b.setWidth 16 <<< 8 := by
  refine crcShift_of_lt 8 ?_
  have hb : b.toNat < 2 ^ 8 := b.isLt
  rw [BitVec.toNat_setWidth_of_le (by omega)]
  omega

/-- A register is its high octet and its low octet. -/
theorem xor_high_byte (r : Half) : r ^^^ ((r.extractLsb' 8 8).setWidth 16 <<< 8) = (r.extractLsb' 0 8).setWidth 16 := by
  ext i hi
  simp only [BitVec.getElem_xor, BitVec.getElem_shiftLeft, BitVec.getElem_setWidth, BitVec.getLsbD_extractLsb']
  by_cases h : i < 8
  · simp [h, BitVec.getLsbD_eq_getElem hi]
  · simp [h, show i - 8 < 8 by omega, show 8 + (i - 8) = i by omega, BitVec.getLsbD_eq_getElem hi]

/-- The register's own high octet entering leaves its low octet in the high one. -/
theorem crcByte_high (r : Half) : crcByte r (r.extractLsb' 8 8) = (r.extractLsb' 0 8).setWidth 16 <<< 8 := by
  rw [crcByte, xor_high_byte, crcShift_eight_byte]

/-- An octet entering a register that holds it in its high octet alone leaves 0. -/
theorem crcByte_same (b : Byte) : crcByte (b.setWidth 16 <<< 8) b = 0#16 := by
  rw [crcByte, BitVec.xor_self]
  exact crcShift_of_lt 8 (by decide)

/-- Settles O28: the high octet leaves the low one alone in the register, and that one leaves nothing. -/
theorem appendedChecksumLeavesResidueZero : Obligations.AppendedChecksumLeavesResidueZero := by
  intro m
  rw [List.append_cons, crc16_append_singleton, crc16_append_singleton, crcByte_high, crcByte_same]

/-! ## A change of one byte -/

/-- Entering the same bytes keeps different registers different. -/
theorem foldl_crcByte_injective (bs : List Byte) {r r' : Half} (h : bs.foldl crcByte r = bs.foldl crcByte r') : r = r' := by
  induction bs generalizing r r' with
  | nil => exact h
  | cons b bs ih => exact crcByte_injective_reg (ih h)

/-- Settles O29: the changed byte makes the registers differ, and the bytes after it keep them different. -/
theorem changingOneByteChangesTheChecksum : Obligations.ChangingOneByteChangesTheChecksum := by
  intro m n b c hbc h
  simp only [crc16, List.foldl_append, List.foldl_cons] at h
  exact hbc (crcByte_injective_byte (foldl_crcByte_injective n h))

/-- Settles O31: the checksum is taken over the bytes below LEN (R70). -/
theorem crcDependsOnlyOnLengthAndBytes : Obligations.CrcDependsOnlyOnLengthAndBytes := by
  intro s s' hlen hle hbytes
  refine ⟨_, _, exec_crc_of_le hle, exec_crc_of_le (hlen ▸ hle), ?_⟩
  rw [State.setStatus_crc, State.setCrc_crc, State.setStatus_crc, State.setCrc_crc, ← hlen, map_range_congr hbytes]

end Sys2Proof.Machine
end

section
/-! SUPPORT. The block functions (R75..R79): rounds with the sum written out, and the inverse of each. -/

namespace Sys2Proof.Machine

/-! ## The sum of each round -/

/-- The sum after `i` rounds of encryption (R77). -/
def roundSum (i : Nat) : Word := BitVec.ofNat 32 i * Config.delta

theorem roundSum_succ (i : Nat) : roundSum i + Config.delta = roundSum (i + 1) := by
  rw [roundSum, roundSum, BitVec.ofNat_add, BitVec.add_mul, BitVec.one_mul]

theorem roundSum_sub (i : Nat) : roundSum (i + 1) - Config.delta = roundSum i := by
  rw [← roundSum_succ, BitVec.add_sub_cancel]

/-- Encryption from round `i` on, with the sum of each round by its number. -/
theorem encryptRounds_eq_foldl (k : Key) (n i : Nat) (b : Block) : encryptRounds k n (roundSum i) b =
    (List.range' i n).foldl (fun b j => encryptRound k (roundSum j) b) b := by
  induction n generalizing i b with
  | zero => rfl
  | succ n ih => rw [encryptRounds, roundSum_succ, ih, List.range'_succ, List.foldl_cons]

/-- Decryption from round `i` of `i + n` on, with the sum of each round by its number, counted down. -/
theorem decryptRounds_eq_foldl (k : Key) (n i : Nat) (b : Block) : decryptRounds k n (roundSum n) b =
    (List.range' i n).foldl (fun b j => decryptRound k (roundSum (i + n - j)) b) b := by
  induction n generalizing i b with
  | zero => rfl
  | succ n ih =>
    rw [decryptRounds, roundSum_sub, ih (i + 1), List.range'_succ, List.foldl_cons, Nat.add_sub_cancel_left,
      Nat.add_right_comm i 1 n]
    rfl

/-- The sums at which the block functions begin (R77, R78). -/
theorem encryptBlock_eq (k : Key) (b : Block) : encryptBlock k b = encryptRounds k 32 (roundSum 0) b := rfl

theorem decryptBlock_eq (k : Key) (b : Block) : decryptBlock k b = decryptRounds k 32 (roundSum 32) b := by
  rw [decryptBlock, BitVec.mul_comm]
  rfl

/-- Round `i` of encryption, with the sums of both its halves (R77). -/
theorem encryptRound_roundSum (k : Key) (i : Nat) (b : Block) : encryptRound k (roundSum i) b =
    ⟨b.v0 + v0Term k (roundSum i) b.v1, b.v1 + v1Term k (roundSum (i + 1)) (b.v0 + v0Term k (roundSum i) b.v1)⟩ := by
  rw [encryptRound, roundSum_succ]

/-- The round of decryption that undoes round `i` of encryption, with the sums of both its halves (R78). -/
theorem decryptRound_roundSum (k : Key) (i : Nat) (b : Block) : decryptRound k (roundSum (i + 1)) b =
    ⟨b.v0 - v0Term k (roundSum i) (b.v1 - v1Term k (roundSum (i + 1)) b.v0), b.v1 - v1Term k (roundSum (i + 1)) b.v0⟩ := by
  rw [decryptRound, roundSum_sub]

/-- Settles O32: round `i` of encryption begins at the sum of `i` rounds, round `i` of decryption at the sum of `32 - i`. -/
theorem blockFunctionsAreThirtyTwoRounds : Obligations.BlockFunctionsAreThirtyTwoRounds := by
  refine ⟨fun k b => ?_, fun k b => ?_, by decide, by decide⟩
  · rw [encryptBlock_eq, encryptRounds_eq_foldl, ← List.range_eq_range']
    exact List.foldl_ext _ _ b fun b i _ => encryptRound_roundSum k i b
  · rw [decryptBlock_eq, decryptRounds_eq_foldl k 32 0, ← List.range_eq_range', Nat.zero_add]
    refine List.foldl_ext _ _ b fun b i hi => ?_
    have hlt : i < 32 := List.mem_range.1 hi
    rw [show 32 - i = 31 - i + 1 by omega]
    exact decryptRound_roundSum k (31 - i) b

/-! ## The inverse -/

/-- The rounds of encryption, the last one split off. -/
theorem encryptRounds_succ (k : Key) (n i : Nat) (b : Block) : encryptRounds k (n + 1) (roundSum i) b =
    encryptRound k (roundSum (i + n)) (encryptRounds k n (roundSum i) b) := by
  rw [encryptRounds_eq_foldl, encryptRounds_eq_foldl, List.range'_1_concat, List.foldl_concat]

/-- A round of decryption undoes the round of encryption of its number (R77, R78). -/
theorem decryptRound_encryptRound (k : Key) (i : Nat) (b : Block) :
    decryptRound k (roundSum (i + 1)) (encryptRound k (roundSum i) b) = b := by
  simp only [decryptRound, encryptRound, roundSum_succ, roundSum_sub, BitVec.add_sub_cancel]

/-- A round of encryption undoes the round of decryption of its number (R77, R78). -/
theorem encryptRound_decryptRound (k : Key) (i : Nat) (b : Block) :
    encryptRound k (roundSum i) (decryptRound k (roundSum (i + 1)) b) = b := by
  simp only [decryptRound, encryptRound, roundSum_succ, roundSum_sub, BitVec.sub_add_cancel]

theorem decryptRounds_encryptRounds (k : Key) (n : Nat) (b : Block) :
    decryptRounds k n (roundSum n) (encryptRounds k n (roundSum 0) b) = b := by
  induction n with
  | zero => rfl
  | succ n ih => rw [encryptRounds_succ, decryptRounds, Nat.zero_add, decryptRound_encryptRound, roundSum_sub, ih]

theorem encryptRounds_decryptRounds (k : Key) (n : Nat) (b : Block) :
    encryptRounds k n (roundSum 0) (decryptRounds k n (roundSum n) b) = b := by
  induction n generalizing b with
  | zero => rfl
  | succ n ih => rw [encryptRounds_succ, decryptRounds, roundSum_sub, ih, Nat.zero_add, encryptRound_decryptRound]

theorem decryptBlock_encryptBlock (k : Key) (b : Block) : decryptBlock k (encryptBlock k b) = b := by
  rw [decryptBlock_eq, encryptBlock_eq, decryptRounds_encryptRounds]

theorem encryptBlock_decryptBlock (k : Key) (b : Block) : encryptBlock k (decryptBlock k b) = b := by
  rw [decryptBlock_eq, encryptBlock_eq, encryptRounds_decryptRounds]

/-- Settles O33: each round undoes the round of its number, the last first. -/
theorem decryptionInvertsEncryption : Obligations.DecryptionInvertsEncryption :=
  fun k b => ⟨decryptBlock_encryptBlock k b, encryptBlock_decryptBlock k b⟩

end Sys2Proof.Machine
end

section
/-! SUPPORT. `cryptBuffer` (R83) by inverse and by injective block functions: ENCBUF and DECBUF (R86, R87, R100). -/

namespace Sys2Proof.Machine

/-- A byte is that byte of its block (R82). -/
theorem byte_eq_byteOf_blockOf (p : Nat → Byte) (i : Nat) : p i = byteOf (blockOf p (i / 8)) (i % 8) := by
  rw [byteOf_blockOf _ _ _ (Nat.mod_lt _ (by omega)), Nat.div_add_mod]

/-- Ciphering by `f` and then by its inverse `g` restores every byte. -/
theorem byte_crypt_crypt {f g : Block → Block} (hgf : ∀ x, g (f x) = x) (d : Nat) (m : Memory) {n : Nat} (hn : n ≤ 256)
    (i : Nat) : Memory.byte d (Memory.crypt d g (Memory.crypt d f m n) n) i = Memory.byte d m i := by
  rw [byte_crypt _ _ _ _ _ hn]
  by_cases h : i / 8 < n / 8
  · rw [if_pos h, block_crypt _ _ _ _ _ hn h, hgf, ← byte_eq_byteOf_blockOf]
  · rw [if_neg h, byte_crypt _ _ _ _ _ hn, if_neg h]

/-- ENCBUF or DECBUF by `f` and then by its inverse `g` restores every byte of BUF. -/
theorem cryptBufBy_cryptBufBy {f g : Block → Block} (hgf : ∀ x, g (f x) = x) {s : State} (h8 : s.len.toNat % 8 = 0)
    (hle : s.len.toNat ≤ 256) :
    ∃ t u, cryptBufBy f s = .next t ∧ t.keyC = s.keyC ∧ t.keyV = s.keyV ∧ cryptBufBy g t = .next u ∧
      ∀ i, u.byte i = s.byte i :=
  ⟨_, _, cryptBufBy_of_goodLength f h8 hle, rfl, rfl, cryptBufBy_of_goodLength g h8 hle,
    byte_crypt_crypt hgf s.resets s.buf hle⟩

/-- The keys by role, from equal key registers (R13). -/
theorem State.keyOf_congr {s t : State} (hC : t.keyC = s.keyC) (hV : t.keyV = s.keyV) (k : Role) : t.keyOf k = s.keyOf k := by
  cases k
  · exact hC
  · exact hV

/-- Settles O38: the block functions of one key are inverse in both orders, and neither command writes a key. -/
theorem bufferCipherRoundTripRestoresTheBuffer : Obligations.BufferCipherRoundTripRestoresTheBuffer := by
  intro ksel s h8 hle
  constructor
  · obtain ⟨t, u, ht, hC, hV, hu, hbytes⟩ := cryptBufBy_cryptBufBy (decryptBlock_encryptBlock (s.keyOf ksel)) h8 hle
    exact ⟨t, u, ht, by rw [exec_decbuf, State.keyOf_congr hC hV, hu], hbytes⟩
  · obtain ⟨t, u, ht, hC, hV, hu, hbytes⟩ := cryptBufBy_cryptBufBy (encryptBlock_decryptBlock (s.keyOf ksel)) h8 hle
    exact ⟨t, u, ht, by rw [exec_encbuf, State.keyOf_congr hC hV, hu], hbytes⟩

/-- Ciphering by an injective `f` gives equal blocks exactly for equal blocks, wherever they stand (R83, R100). -/
theorem cryptBufBy_block_eq_iff {f : Block → Block} (hf : Function.Injective f) {s s' : State} {b c : Nat}
    (h8 : s.len.toNat % 8 = 0) (hle : s.len.toNat ≤ 256) (hb : 8 * b < s.len.toNat)
    (h8' : s'.len.toNat % 8 = 0) (hle' : s'.len.toNat ≤ 256) (hc : 8 * c < s'.len.toNat) :
    ∃ t t', cryptBufBy f s = .next t ∧ cryptBufBy f s' = .next t' ∧
      (blockOf t.byte b = blockOf t'.byte c ↔ blockOf s.byte b = blockOf s'.byte c) := by
  obtain ⟨m, hm, hblocks, -⟩ := exists_buf_of_cryptBufBy f h8 hle
  obtain ⟨m', hm', hblocks', -⟩ := exists_buf_of_cryptBufBy f h8' hle'
  refine ⟨_, _, hm, hm', ?_⟩
  calc blockOf (Memory.byte s.resets m) b = blockOf (Memory.byte s'.resets m') c
    _ ↔ f (blockOf s.byte b) = f (blockOf s'.byte c) := by rw [hblocks b (by omega), hblocks' c (by omega)]
    _ ↔ blockOf s.byte b = blockOf s'.byte c := hf.eq_iff

/-- Settles O39: the block functions have inverses, so they are injective. -/
theorem blocksAreCipheredIndependently : Obligations.BlocksAreCipheredIndependently := by
  intro ksel s s' b c hkey h8 hle hb h8' hle' hc
  have henc : Function.Injective (encryptBlock (s.keyOf ksel)) := Function.LeftInverse.injective (decryptBlock_encryptBlock _)
  have hdec : Function.Injective (decryptBlock (s.keyOf ksel)) := Function.LeftInverse.injective (encryptBlock_decryptBlock _)
  simp only [exec_encbuf, exec_decbuf, ← hkey]
  exact ⟨cryptBufBy_block_eq_iff henc h8 hle hb h8' hle' hc, cryptBufBy_block_eq_iff hdec h8 hle hb h8' hle' hc⟩

end Sys2Proof.Machine
end

section
/-! SUPPORT. The Packet Codec (R88..R98): the layouts, what SEND reads, RECV's comparison, and a frame received at the peer. -/

namespace Sys2Proof.Machine

/-- Settles O40: the two layouts are fixed tables. -/
theorem packetLayoutsArePackedAndThirtyTwoBytes : Obligations.PacketLayoutsArePackedAndThirtyTwoBytes :=
  ⟨fun pt => by cases pt <;> decide, by decide, by decide⟩

/-! ## SEND -/

/-- The state SEND leaves (R96). -/
def sentState (pt : PacketType) (s : State) : State := { s with
  buf := sentFrame pt s, crc := checksum32 (zeroedByte (reservedStart pt) s.byte), len := 32#16, err := .none, valid := false }

theorem exec_send_eq_sentState (pt : PacketType) (s : State) : exec (.send pt) s = .next (sentState pt s) := exec_send pt s

theorem sentState_crc (pt : PacketType) (s : State) :
    (sentState pt s).crc = checksum32 (zeroedByte (reservedStart pt) s.byte) := rfl

theorem sentState_byte (pt : PacketType) (s : State) (i : Nat) :
    (sentState pt s).byte i = Memory.byte s.resets (sentFrame pt s) i := by
  simp only [sentState, State.byte]

/-- Each block of SEND's frame is the encryption of the plaintext packet's block (R83, R96). -/
theorem block_sentState (pt : PacketType) (s : State) {b : Nat} (hb : b < 4) : blockOf (sentState pt s).byte b =
    encryptBlock s.outKey (blockOf (sentByte (reservedStart pt) s.byte) b) := by
  rw [← block_sentFrame pt s hb]
  exact blockOf_congr _ _ _ _ fun j _ => sentState_byte pt s _

/-- The zeroed packet is made of the bytes below the reserved region (R96). -/
theorem zeroedByte_congr {r : Nat} {p q : Nat → Byte} (h : ∀ i, i < r → p i = q i) {i : Nat} (hi : i < 32) :
    zeroedByte r p i = zeroedByte r q i := by
  unfold zeroedByte
  by_cases hr : r ≤ i
  · rw [if_pos ⟨hr, hi⟩, if_pos ⟨hr, hi⟩]
  · rw [if_neg (fun hin => hr hin.1), if_neg (fun hin => hr hin.1), h i (by omega)]

/-- The packet SEND encrypts is made of the bytes below the reserved region (R96). -/
theorem sentByte_congr {r : Nat} {p q : Nat → Byte} (h : ∀ i, i < r → p i = q i) {i : Nat} (hi : i < 32) :
    sentByte r p i = sentByte r q i := by
  have hsum : checksum32 (zeroedByte r p) = checksum32 (zeroedByte r q) := checksum32_congr fun _ => zeroedByte_congr h
  rw [sentByte, sentByte, hsum, withChecksum, withChecksum, zeroedByte_congr h hi]

/-- Settles O42: checksum and frame are made of the key and the bytes below the reserved region. -/
theorem sendDoesNotReadReservedBytes : Obligations.SendDoesNotReadReservedBytes := by
  intro pt s s' hrole hkeyC hkeyV hbytes
  have hkey : s.outKey = s'.outKey := by rw [State.outKey_eq, State.outKey_eq, hrole, hkeyC, hkeyV]
  refine ⟨_, _, exec_send_eq_sentState pt s, exec_send_eq_sentState pt s', ?_, fun i hi => ?_⟩
  · rw [sentState_crc, sentState_crc]
    exact checksum32_congr fun _ => zeroedByte_congr hbytes
  · have hplain : blockOf (sentByte (reservedStart pt) s.byte) (i / 8) = blockOf (sentByte (reservedStart pt) s'.byte) (i / 8) :=
      blockOf_congr _ _ _ _ fun j hj => sentByte_congr hbytes (by omega)
    have hb : i / 8 < 4 := by omega
    rw [byte_eq_byteOf_blockOf (sentState pt s).byte, byte_eq_byteOf_blockOf (sentState pt s').byte, block_sentState pt s hb,
      block_sentState pt s' hb, hkey, hplain]

/-! ## RECV -/

/-- The code RECV records for a frame of the right length, by its comparison (R97, R101). -/
def recvError (pt : PacketType) (s : State) : ErrCode :=
  if (received pt s).crc = (received pt s).rxcrc then .none else .integrityCheckFailed

/-- RECV of a frame of the right length (R97): decrypted, and VALID by the comparison of the two checksums. -/
theorem exec_recv_of_len_eq {pt : PacketType} {s : State} (h : s.len.toNat = plen pt) :
    exec (.recv pt) s = .next ((received pt s).setStatus (recvError pt s) ((received pt s).crc == (received pt s).rxcrc)) := by
  rw [exec, execRecv, if_neg (not_not_intro h), recvError]
  by_cases hc : (received pt s).crc = (received pt s).rxcrc
  · rw [if_neg (not_not_intro hc), if_pos hc, beq_iff_eq.2 hc, State.completeValid]
  · rw [if_pos hc, if_neg hc, beq_eq_false_iff_ne.2 hc, State.raise]

/-- RECV's key by role (R94): the block's own. -/
theorem State.inKey_eq (s : State) : s.inKey = match s.role with | .controller => s.keyC | .vehicle => s.keyV := by
  unfold State.inKey
  cases s.role <;> rfl

/-- RECV before its comparison changes BUF and the two checksums only (R97). -/
theorem received_eq (pt : PacketType) (s : State) :
    received pt s = { s with buf := (received pt s).buf, crc := (received pt s).crc, rxcrc := (received pt s).rxcrc } := rfl

/-- The length both packet types have, as LEN (R88). -/
theorem len_eq_plen {s : State} (h : s.len = 32#16) (pt : PacketType) : s.len.toNat = plen pt := by
  rw [h, plen_eq]
  rfl

/-- Settles O44: RECV of the right length, with the bytes and the checksums of `received`. -/
theorem recvValidatesTheFrame : Obligations.RecvValidatesTheFrame := by
  intro pt s hlen k q c e
  have hkey : s.inKey = k := s.inKey_eq
  have hcrc : (received pt s).crc = c := by rw [received_crc, hkey]
  have hrxcrc : (received pt s).rxcrc = e := by rw [received_rxcrc, hkey]
  have hbyte : ∀ i, Memory.byte s.resets (received pt s).buf i = if i < 32 then decryptedByte s.inKey s.byte i else s.byte i :=
    received_byte pt s
  refine ⟨(received pt s).buf, ?_, fun _ i hi => ?_, fun i hi => ?_⟩
  · rw [exec_recv_of_len_eq (len_eq_plen hlen pt), recvError, hcrc, hrxcrc, received_eq, hcrc, hrxcrc]
    rfl
  · rw [hbyte, if_pos hi, hkey]
  · rw [hbyte, if_neg (by omega)]

/-- Settles O46: RECV uses its packet type for the length alone, and both lengths are 32. -/
theorem recvDoesNotTellPacketTypesApart : Obligations.RecvDoesNotTellPacketTypesApart :=
  fun _ => rfl

/-! ## A frame received at the peer -/

/-- Decrypting blocks encrypted with the same key gives their bytes back (R79, R83). -/
theorem decryptedByte_of_encrypted {k : Key} {p q : Nat → Byte} {i : Nat}
    (h : blockOf p (i / 8) = encryptBlock k (blockOf q (i / 8))) : decryptedByte k p i = q i := by
  rw [decryptedByte, h, decryptBlock_encryptBlock, ← byte_eq_byteOf_blockOf]

/-- The checksum field is the only difference between the packet SEND encrypts and the zeroed packet (R95, R96). -/
theorem zeroedByte_sentByte {r : Nat} (hr : r ≤ 30) (p : Nat → Byte) {i : Nat} (hi : i < 32) :
    zeroedByte 30 (sentByte r p) i = zeroedByte r p i := by
  by_cases h30 : 30 ≤ i
  · rw [zeroedByte, if_pos ⟨h30, hi⟩, zeroedByte, if_pos ⟨by omega, hi⟩]
  · rw [zeroedByte, if_neg (fun hin => h30 hin.1), sentByte, withChecksum, if_neg (by omega), if_neg (by omega)]

/-- A checksum from its two bytes (R40). -/
theorem half_of_bytes (c : Half) : c.extractLsb' 8 8 ++ c.extractLsb' 0 8 = c := by
  rw [BitVec.extractLsb'_append_extractLsb'_eq_extractLsb' (show 8 = 0 + 8 from rfl)]
  exact BitVec.extractLsb'_eq_self

/-- The checksum field of the packet SEND encrypts (R91, R96). -/
theorem sentByte_checksum (r : Nat) (p : Nat → Byte) : sentByte r p 31 ++ sentByte r p 30 = checksum32 (zeroedByte r p) := by
  rw [sentByte, withChecksum, withChecksum, if_neg (by decide), if_pos rfl, if_pos rfl, half_of_bytes]

/-- Settles O45: the frame decrypts to the packet SEND encrypted, whose checksum field holds the checksum RECV recomputes. -/
theorem packetRoundTrip : Obligations.PacketRoundTrip := by
  intro pt s r hkey hlen
  refine ⟨_, exec_send_eq_sentState pt s, fun hframe => ?_⟩
  have hplain : ∀ i, i < 32 → decryptedByte r.inKey r.byte i = sentByte (reservedStart pt) s.byte i := by
    intro i hi
    refine decryptedByte_of_encrypted ?_
    rw [blockOf_congr r.byte (sentState pt s).byte (i / 8) (i / 8) fun j hj => hframe _ (by omega),
      block_sentState pt s (by omega)]
    exact congrArg (encryptBlock · _) hkey
  have hres : reservedStart pt ≤ 30 := (reservedStart_le pt).trans (by omega)
  have hcrc : (received pt r).crc = (sentState pt s).crc := by
    rw [received_crc, sentState_crc]
    refine checksum32_congr fun i hi => ?_
    rw [zeroedByte_congr (fun j hj => hplain j (by omega)) hi, zeroedByte_sentByte hres _ hi]
  have hrxcrc : (received pt r).rxcrc = (sentState pt s).crc := by
    rw [received_rxcrc, hplain 31 (by omega), hplain 30 (by omega), sentByte_checksum, sentState_crc]
  have heq : (received pt r).crc = (received pt r).rxcrc := hcrc.trans hrxcrc.symm
  refine ⟨_, exec_recv_of_len_eq (len_eq_plen hlen pt), ?_, ?_, ?_, ?_, fun i hi => ?_⟩
  · rw [State.setStatus_err, recvError, if_pos heq]
  · rw [State.setStatus_valid, heq, beq_self_eq_true]
  · rw [State.setStatus_crc, hcrc]
  · rw [State.setStatus_rxcrc, hrxcrc]
  · rw [State.setStatus_byte, received_byte, if_pos hi, hplain i hi]

end Sys2Proof.Machine
end

section
/-! SUPPORT. Every command (R33, R101): by instruction, the fields it writes and the code it records. -/

namespace Sys2Proof.Machine

/-! ## Each command as updates of the state -/

section Commands

variable (k : Role) (pt : PacketType) (s : State)

/-- CRC: refused above 256, else the checksum is set (R74). -/
theorem exec_crc_cases :
    (256 < s.len.toNat ∧ exec .crc s = .next (s.setStatus .preconditionViolation false)) ∨
    (s.len.toNat ≤ 256 ∧ ∃ c, exec .crc s = .next ((s.setCrc c).setStatus .none false)) := by
  rcases Nat.lt_or_ge 256 s.len.toNat with hlt | hle
  · exact .inl ⟨hlt, exec_crc_of_lt hlt⟩
  · exact .inr ⟨hle, _, exec_crc_of_le hle⟩

/-- ENCB sets V0 and V1 (R84). -/
theorem exists_exec_encb : ∃ b, exec (.encb k) s = .next ((s.setV b).setStatus .none false) := by
  obtain ⟨b, hb⟩ : ∃ b, encryptBlock (s.keyOf k) s.vBlock = b := ⟨_, rfl⟩
  exact ⟨b, exec_encb_of_eq hb⟩

/-- DECB sets V0 and V1 (R85). -/
theorem exists_exec_decb : ∃ b, exec (.decb k) s = .next ((s.setV b).setStatus .none false) := by
  obtain ⟨b, hb⟩ : ∃ b, decryptBlock (s.keyOf k) s.vBlock = b := ⟨_, rfl⟩
  exact ⟨b, exec_decb_of_eq hb⟩

/-- ENCBUF and DECBUF: a bad length is refused, else BUF changes below LEN (R86, R87). -/
theorem cryptBufBy_cases (f : Block → Block) :
    ((s.len.toNat % 8 ≠ 0 ∨ 256 < s.len.toNat) ∧ cryptBufBy f s = .next (s.setStatus .preconditionViolation false)) ∨
    (¬(s.len.toNat % 8 ≠ 0 ∨ 256 < s.len.toNat) ∧ ∃ m, cryptBufBy f s = .next ((s.setBuf m).setStatus .none false) ∧
      ∀ i, s.len.toNat ≤ i → Memory.byte s.resets m i = s.byte i) := by
  by_cases hbad : s.len.toNat % 8 ≠ 0 ∨ 256 < s.len.toNat
  · exact .inl ⟨hbad, cryptBufBy_of_badLength f hbad⟩
  · obtain ⟨m, hexec, -, hbytes⟩ := exists_buf_of_cryptBufBy f (s := s) (by omega) (by omega)
    exact .inr ⟨hbad, m, hexec, hbytes⟩

/-- SEND sets BUF below 32, CRC and LEN (R96). -/
theorem exists_exec_send : ∃ m c, exec (.send pt) s = .next ((((s.setBuf m).setCrc c).setLen 32#16).setStatus .none false) ∧
    ∀ i, 32 ≤ i → Memory.byte s.resets m i = s.byte i :=
  ⟨sentFrame pt s, _, execSend_eq pt s, fun _ hi => byte_sentFrame_of_le pt s hi⟩

/-- RECV: another length is refused, else BUF changes below 32 and the two checksums give STATUS (R97, R102). -/
theorem exec_recv_cases :
    (s.len ≠ 32#16 ∧ exec (.recv pt) s = .next (s.setStatus .frameLengthMismatch false)) ∨
    (s.len = 32#16 ∧ ∃ m x c, exec (.recv pt) s = .next ((((s.setBuf m).setRxcrc x).setCrc c).setStatus
        (if c = x then .none else .integrityCheckFailed) (c == x)) ∧
      ∀ i, 32 ≤ i → Memory.byte s.resets m i = s.byte i) := by
  by_cases hlen : s.len = 32#16
  · refine .inr ⟨hlen, (received pt s).buf, (received pt s).rxcrc, (received pt s).crc,
      exec_recv_of_len_eq (len_eq_plen hlen pt), fun i hi => ?_⟩
    have hbyte := received_byte pt s i
    rw [if_neg (by omega)] at hbyte
    exact hbyte
  · exact .inl ⟨hlen, recvRejectsAWrongLength pt s hlen⟩

/-- Where every byte from `n` on is as before, a changed byte is below `n`. -/
theorem lt_of_byte_ne {s : State} {m : Memory} {n j : Nat} (h : ∀ i, n ≤ i → Memory.byte s.resets m i = s.byte i)
    (hne : Memory.byte s.resets m j ≠ s.byte j) : j < n :=
  Nat.lt_of_not_le fun hle => hne (h j hle)

end Commands

/-! ## What all commands have in common -/

/-- Settles O23: by command, the updates it is made of, and for a change of BUF the bytes it stays below. -/
theorem commandsChangeOnlyTheirOwnState : Obligations.CommandsChangeOnlyTheirOwnState := by
  intro i s
  cases i with
  | clr => exact ⟨s.setStatus .none false, rfl, by simp⟩
  | crc =>
    rcases exec_crc_cases s with ⟨-, h⟩ | ⟨-, c, h⟩
    · exact ⟨_, h, by simp⟩
    · exact ⟨_, h, by simp⟩
  | encb k =>
    obtain ⟨b, h⟩ := exists_exec_encb k s
    exact ⟨_, h, by simp⟩
  | decb k =>
    obtain ⟨b, h⟩ := exists_exec_decb k s
    exact ⟨_, h, by simp⟩
  | encbuf k =>
    rcases cryptBufBy_cases s (encryptBlock (s.keyOf k)) with ⟨-, h⟩ | ⟨-, m, h, hbytes⟩
    · exact ⟨_, h, by simp⟩
    · exact ⟨_, h, by simpa using fun _ => lt_of_byte_ne hbytes⟩
  | decbuf k =>
    rcases cryptBufBy_cases s (decryptBlock (s.keyOf k)) with ⟨-, h⟩ | ⟨-, m, h, hbytes⟩
    · exact ⟨_, h, by simp⟩
    · exact ⟨_, h, by simpa using fun _ => lt_of_byte_ne hbytes⟩
  | send pt =>
    obtain ⟨m, c, h, hbytes⟩ := exists_exec_send pt s
    exact ⟨_, h, by simpa using fun _ => lt_of_byte_ne hbytes⟩
  | recv pt =>
    rcases exec_recv_cases pt s with ⟨-, h⟩ | ⟨-, m, x, c, h, hbytes⟩
    · exact ⟨_, h, by simp⟩
    · exact ⟨_, h, by simpa using fun _ => lt_of_byte_ne hbytes⟩

/-- Settles O24: by command, the code of each of its ends and the condition of that end. -/
theorem commandsRecordTheirErrorCodes : Obligations.CommandsRecordTheirErrorCodes := by
  intro i s
  cases i with
  | clr => exact ⟨s.setStatus .none false, rfl, by simp⟩
  | crc =>
    rcases exec_crc_cases s with ⟨hlt, h⟩ | ⟨hle, c, h⟩
    · exact ⟨_, h, by simp [hlt, State.setStatus]⟩
    · exact ⟨_, h, by simp [hle]⟩
  | encb k =>
    obtain ⟨b, h⟩ := exists_exec_encb k s
    exact ⟨_, h, by simp⟩
  | decb k =>
    obtain ⟨b, h⟩ := exists_exec_decb k s
    exact ⟨_, h, by simp⟩
  | encbuf k =>
    rcases cryptBufBy_cases s (encryptBlock (s.keyOf k)) with ⟨hbad, h⟩ | ⟨hgood, m, h, -⟩
    · exact ⟨_, h, by simp [hbad, State.setStatus]⟩
    · exact ⟨_, h, by simp [hgood]⟩
  | decbuf k =>
    rcases cryptBufBy_cases s (decryptBlock (s.keyOf k)) with ⟨hbad, h⟩ | ⟨hgood, m, h, -⟩
    · exact ⟨_, h, by simp [hbad, State.setStatus]⟩
    · exact ⟨_, h, by simp [hgood]⟩
  | send pt =>
    obtain ⟨m, c, h, -⟩ := exists_exec_send pt s
    exact ⟨_, h, by simp⟩
  | recv pt =>
    rcases exec_recv_cases pt s with ⟨hlen, h⟩ | ⟨hlen, m, x, c, h, -⟩
    · exact ⟨_, h, by simp [hlen, State.setStatus]⟩
    · refine ⟨_, h, ?_⟩
      by_cases hc : c = x <;> simp [hlen, hc]

/-- Settles O25: every end of every command writes STATUS anew, and no arm reads it before. -/
theorem commandsDoNotReadStatus : Obligations.CommandsDoNotReadStatus := by
  intro i s e v
  cases i with
  | clr | crc | encb k | decb k | encbuf k | decbuf k | send pt | recv pt => rfl

end Sys2Proof.Machine
end

section
/-! SUPPORT. What an access and a step can do (R45, R46, R59..R65, R114), said once for every state. -/

namespace Sys2Proof.Machine

/-! ## The offset of a register -/

/-- The one window offset of a register (R38). -/
def regOffset : Reg → Offset
  | .ctrl => 0x000#9
  | .status => 0x004#9
  | .cmd => cmdOffset
  | .len => 0x00C#9
  | .crc => 0x010#9
  | .rxcrc => 0x014#9
  | .v0 => 0x018#9
  | .v1 => 0x01C#9
  | .keyC i => BitVec.ofNat 9 (0x020 + 4 * i.toNat)
  | .keyV i => BitVec.ofNat 9 (0x030 + 4 * i.toNat)

theorem regOffset_regAt : ∀ n < 16, regOffset (regAt n) = BitVec.ofNat 9 (4 * n) := by decide

/-- Only a word access reaches a register (R60). -/
theorem width_of_target_reg {w : Width} {off : Offset} {r : Reg} (h : target w off = some (.reg r)) : w = .w32 := by
  rcases target_eq_some h with ⟨-, hw, -, -⟩ | ⟨-, -, hr⟩
  · exact hw
  · cases hr

/-- A register is reached at its own offset only (R38, R60). -/
theorem eq_regOffset_of_target {w : Width} {off : Offset} {r : Reg} (h : target w off = some (.reg r)) :
    off = regOffset r := by
  rcases target_eq_some h with ⟨hlt, -, h4, hr⟩ | ⟨-, -, hr⟩
  · obtain rfl : r = regAt (off.toNat / 4) := by simpa using hr
    rw [regOffset_regAt _ (by omega), Nat.mul_div_cancel' (Nat.dvd_of_mod_eq_zero h4), BitVec.ofNat_toNat,
      BitVec.setWidth_eq]
  · cases hr

/-! ## Writes of BUF -/

/-- Writes of different bytes commute. -/
theorem put_put_comm (m : Memory) {i j : Nat} (v w : Byte) (h : i ≠ j) :
    Memory.put (Memory.put m i v) j w = Memory.put (Memory.put m j w) i v := by
  unfold Memory.put
  by_cases hi : i < Config.bufSize
  · by_cases hj : j < Config.bufSize
    · simp only [if_pos hi, if_pos hj, insert_comm _ _ _ v w h]
    · simp only [if_neg hj]
  · simp only [if_neg hi]

/-- The second of two equal writes of a byte changes nothing. -/
theorem put_put_self (m : Memory) (i : Nat) (v : Byte) : Memory.put (Memory.put m i v) i v = Memory.put m i v := by
  unfold Memory.put
  split
  · exact insert_insert m i v v
  · rfl

/-- A write that changes nothing still changes nothing after a write elsewhere. -/
theorem put_eq_self_of_put {m : Memory} {i j : Nat} {v : Byte} (w : Byte) (h : i ≠ j) (hm : Memory.put m i v = m) :
    Memory.put (Memory.put m j w) i v = Memory.put m j w := by
  rw [put_put_comm _ _ _ h.symm, hm]

theorem write16_write16 (m : Memory) (i : Nat) (v : Half) :
    Memory.write16 (Memory.write16 m i v) i v = Memory.write16 m i v := by
  have h0 : Memory.put (Memory.write16 m i v) i (v.extractLsb' 0 8) = Memory.write16 m i v :=
    put_eq_self_of_put _ (by omega) (put_put_self _ _ _)
  have h1 : Memory.put (Memory.write16 m i v) (i + 1) (v.extractLsb' 8 8) = Memory.write16 m i v := put_put_self _ _ _
  rw [Memory.write16.eq_def (Memory.write16 m i v), h0, h1]

theorem write32_write32 (m : Memory) (i : Nat) (v : Word) :
    Memory.write32 (Memory.write32 m i v) i v = Memory.write32 m i v := by
  have h0 : Memory.put (Memory.write32 m i v) i (v.extractLsb' 0 8) = Memory.write32 m i v :=
    put_eq_self_of_put _ (by omega) (put_eq_self_of_put _ (by omega) (put_eq_self_of_put _ (by omega) (put_put_self _ _ _)))
  have h1 : Memory.put (Memory.write32 m i v) (i + 1) (v.extractLsb' 8 8) = Memory.write32 m i v :=
    put_eq_self_of_put _ (by omega) (put_eq_self_of_put _ (by omega) (put_put_self _ _ _))
  have h2 : Memory.put (Memory.write32 m i v) (i + 2) (v.extractLsb' 16 8) = Memory.write32 m i v :=
    put_eq_self_of_put _ (by omega) (put_put_self _ _ _)
  have h3 : Memory.put (Memory.write32 m i v) (i + 3) (v.extractLsb' 24 8) = Memory.write32 m i v := put_put_self _ _ _
  rw [Memory.write32.eq_def (Memory.write32 m i v), h0, h1, h2, h3]

/-- A host's write of BUF: made a second time it changes nothing (R45), and it keeps the canonical form (entry 4). -/
structure BufWrite (g : Memory → Memory) : Prop where
  again : ∀ m, g (g m) = g m
  keeps_wf : ∀ m, Memory.wf m = true → Memory.wf (g m) = true

theorem bufWrite_put (i : Nat) (v : Byte) : BufWrite fun m => Memory.put m i v :=
  ⟨fun m => put_put_self m i v, fun _ => put_wf i v⟩

theorem bufWrite_write16 (i : Nat) (v : Half) : BufWrite fun m => Memory.write16 m i v :=
  ⟨fun m => write16_write16 m i v, fun _ => write16_wf i v⟩

theorem bufWrite_write32 (i : Nat) (v : Word) : BufWrite fun m => Memory.write32 m i v :=
  ⟨fun m => write32_write32 m i v, fun _ => write32_wf i v⟩

/-! ## The inputs to come and the answers given -/

/-- A state with other inputs to come and other answers given: the model's own lists (entries 1 and 2). -/
def State.withPorts (s : State) (p : List Input) (x : List Response) : State := { s with pending := p, responses := x }

/-- The answer to a read does not depend on the inputs to come or the answers given. -/
theorem hostRead_withPorts (w : Width) (off : Offset) (s : State) (p : List Input) (x : List Response) :
    hostRead w off (s.withPorts p x) = hostRead w off s := by
  unfold hostRead
  rcases target w off with _ | r | i
  · rfl
  · cases r <;> rfl
  · cases w <;> rfl

/-! ## What an access can do -/

/-- An access leaves an answer and no more, or writes BUF, or is a word write of a register at its offset (R45, R60..R64). -/
theorem performAccess_cases (a : Access) :
    (∃ f : State → Response, (∀ s p x, f (s.withPorts p x) = f s) ∧ ∀ s, performAccess a s = .next (s.respond (f s))) ∨
    (∃ g, BufWrite g ∧ ∀ s, performAccess a s = .next ((s.setBuf (g s.buf)).respond .done)) ∨
    ∃ r v, a = .write32 (regOffset r) v ∧ ∀ s, performAccess a s = answer .done (writeReg r v s) := by
  rcases h : target (accessWidth a) (accessOffset a) with _ | r | i
  · exact .inl ⟨fun _ => .busError, fun _ _ _ => rfl, fun s => performAccess_of_target_none s h⟩
  · have hword : accessWidth a = .w32 := width_of_target_reg h
    cases a with
    | read w off => exact .inl ⟨hostRead w off, hostRead_withPorts w off, performAccess_read w off⟩
    | write8 off v => cases hword
    | write16 off v => cases hword
    | write32 off v =>
      simp only [accessWidth, accessOffset] at h
      exact .inr (.inr ⟨r, v, by rw [← eq_regOffset_of_target h], fun s => by simp only [performAccess, hostWrite32, h]⟩)
  · cases a <;> simp only [accessWidth, accessOffset] at h
    case read w off => exact .inl ⟨hostRead w off, hostRead_withPorts w off, performAccess_read w off⟩
    case write8 off v =>
      exact .inr (.inl ⟨_, bufWrite_put i v, fun s => by simp only [performAccess, hostWrite8, h, answer]⟩)
    case write16 off v =>
      exact .inr (.inl ⟨_, bufWrite_write16 i v, fun s => by simp only [performAccess, hostWrite16, h, answer]⟩)
    case write32 off v =>
      exact .inr (.inl ⟨_, bufWrite_write32 i v, fun s => by simp only [performAccess, hostWrite32, h, answer]⟩)

/-- The state an answered outcome comes from. -/
theorem answer_eq_next {x : Response} {o : Host.Outcome State Fault Refusal} {t : State} (h : answer x o = .next t) :
    ∃ u, o = .next u ∧ t = u.respond x := by
  cases o with
  | next u => cases h; exact ⟨u, rfl, rfl⟩
  | fault f => cases f
  | refused r => cases h

/-! ## What a step can do -/

/-- What a step can do: nothing, reset, an answer, a write of BUF, or a word write of a register at its offset (R46, R59..R64,
R114). -/
theorem step_cases {s t : State} (h : step s = .next t) :
    t = s ∨
    (s.pending.head? = some .reset ∧ ∃ rest, t = (s.setPending rest).afterReset) ∨
    (∃ rest x, t = (s.setPending rest).respond x) ∨
    (∃ rest m, t = ((s.setPending rest).setBuf m).respond .done ∧ (Memory.wf s.buf = true → Memory.wf m = true)) ∨
    ∃ rest r v u, s.pending.head? = some (.access (.write32 (regOffset r) v)) ∧
      writeReg r v (s.setPending rest) = .next u ∧ t = u.respond .done := by
  cases hp : s.pending with
  | nil =>
    rw [step_idle hp] at h
    cases h
    exact .inl rfl
  | cons i rest =>
    rw [step_input hp] at h
    cases i with
    | reset =>
      cases h
      exact .inr (.inl ⟨rfl, rest, rfl⟩)
    | access a =>
      rw [performInput] at h
      rcases performAccess_cases a with ⟨f, -, ha⟩ | ⟨g, hg, ha⟩ | ⟨r, v, rfl, ha⟩
      · rw [ha] at h
        cases h
        exact .inr (.inr (.inl ⟨rest, _, rfl⟩))
      · rw [ha] at h
        cases h
        exact .inr (.inr (.inr (.inl ⟨rest, _, rfl, hg.keeps_wf s.buf⟩)))
      · rw [ha] at h
        obtain ⟨u, hu, rfl⟩ := answer_eq_next h
        exact .inr (.inr (.inr (.inr ⟨rest, r, v, u, rfl, hu, rfl⟩)))

end Sys2Proof.Machine
end

section
/-! SUPPORT. What every step keeps: the invariant; STATUS and the checksums but for CMD; CTRL and the keys but for their own
writes. -/

namespace Sys2Proof.Machine

/-! ## The invariant -/

/-- The invariant speaks of BUF, STATUS and the checksums only. -/
theorem Inv.congr {s t : State} (h : Inv s) (hbuf : Memory.wf t.buf = true) (herr : t.err = s.err) (hvalid : t.valid = s.valid)
    (hcrc : t.crc = s.crc) (hrxcrc : t.rxcrc = s.rxcrc) : Inv t where
  buf_wf := hbuf
  valid_err := by rw [hvalid, herr]; exact h.valid_err
  valid_crc := by rw [hvalid, hcrc, hrxcrc]; exact h.valid_crc
  failed_crc := by rw [herr, hcrc, hrxcrc]; exact h.failed_crc

/-- STATUS without VALID and without INTEGRITY_CHECK_FAILED asks nothing of the checksums. -/
theorem Inv.of_not_valid {s : State} (hbuf : Memory.wf s.buf = true) (hvalid : s.valid = false)
    (herr : s.err ≠ .integrityCheckFailed) : Inv s where
  buf_wf := hbuf
  valid_err := by simp [hvalid]
  valid_crc := by simp [hvalid]
  failed_crc h := absurd h herr

/-- SEND's packet is written byte by byte (R96). -/
theorem plainPacket_wf (pt : PacketType) (d : Nat) {m : Memory} (hm : Memory.wf m = true) :
    Memory.wf (plainPacket pt d m) = true :=
  write16_wf _ _ (write16_wf _ _ (zero_wf _ _ hm))

/-- Whatever STATUS was, a command leaves the invariant: only RECV sets VALID or records INTEGRITY_CHECK_FAILED, and it does so by
its comparison (R97). -/
theorem inv_of_exec {i : Instr} {s t : State} (hbuf : Memory.wf s.buf = true) (h : exec i s = .next t) : Inv t := by
  obtain ⟨u, e, v, hexec, hu⟩ := exec_cases i s
  obtain rfl : u.setStatus e v = t := by simpa [hexec] using h
  rcases hu with ⟨rfl, rfl, he⟩ | ⟨c, rfl, rfl, rfl⟩ | ⟨b, rfl, rfl, rfl⟩ | ⟨f, -, rfl, rfl, rfl⟩ |
    ⟨pt, rfl, rfl, rfl⟩ | ⟨pt, rfl, rfl, rfl⟩
  · exact .of_not_valid hbuf rfl (by rcases he with rfl | rfl | rfl <;> exact nofun)
  · exact .of_not_valid hbuf rfl nofun
  · exact .of_not_valid hbuf rfl nofun
  · exact .of_not_valid (by simpa using crypt_wf _ _ _ hbuf) (by simp) (by simp)
  · exact .of_not_valid (by simpa using crypt_wf _ _ _ (plainPacket_wf pt _ hbuf)) (by simp) (by simp)
  · by_cases hc : (received pt s).crc = (received pt s).rxcrc
    · exact ⟨crypt_wf _ _ _ hbuf, fun _ => if_pos hc, fun _ => hc, by simp [hc]⟩
    · exact ⟨crypt_wf _ _ _ hbuf, by simp [hc], by simp [hc], fun _ => hc⟩

/-- A write to CMD leaves the invariant, whatever the word decodes to. -/
theorem inv_of_perform {c : Decoded} {s t : State} (hbuf : Memory.wf s.buf = true) (h : perform c s = .next t) : Inv t := by
  cases c with
  | command i => exact inv_of_exec hbuf h
  | illegal why =>
    cases h
    exact .of_not_valid hbuf rfl nofun

/-- A write of a register other than CMD touches neither BUF nor STATUS nor the checksums (R19, R22, R23, R63). -/
theorem writeReg_keeps_status {r : Reg} {w : Word} {s t : State} (hr : r ≠ .cmd) (h : writeReg r w s = .next t) :
    t.buf = s.buf ∧ t.err = s.err ∧ t.valid = s.valid ∧ t.crc = s.crc ∧ t.rxcrc = s.rxcrc := by
  cases r
  case cmd => exact absurd rfl hr
  case keyC i => rw [writeReg_keyC] at h; cases h; exact ⟨rfl, rfl, rfl, rfl, rfl⟩
  case keyV i => rw [writeReg_keyV] at h; cases h; exact ⟨rfl, rfl, rfl, rfl, rfl⟩
  all_goals cases h; exact ⟨rfl, rfl, rfl, rfl, rfl⟩

/-- Settles O17: by what a step can do; a command leaves the invariant by itself, all else keeps STATUS and the checksums. -/
theorem everyStepKeepsTheInvariant : Obligations.EveryStepKeepsTheInvariant := by
  intro s t hs h
  rcases step_cases h with rfl | ⟨-, rest, rfl⟩ | ⟨rest, x, rfl⟩ | ⟨rest, m, rfl, hm⟩ | ⟨rest, r, v, u, -, hu, rfl⟩
  · exact hs
  · exact .of_not_valid rfl rfl nofun
  · exact hs.congr hs.buf_wf rfl rfl rfl rfl
  · exact hs.congr (hm hs.buf_wf) rfl rfl rfl rfl
  · have hinv : Inv u := by
      by_cases hr : r = .cmd
      · subst hr
        exact inv_of_perform (s := s.setPending rest) hs.buf_wf hu
      · obtain ⟨hbuf, herr, hvalid, hcrc, hrx⟩ := writeReg_keeps_status hr hu
        exact hs.congr (hbuf ▸ hs.buf_wf) herr hvalid hcrc hrx
    exact hinv.congr hinv.buf_wf rfl rfl rfl rfl

/-- Settles O16: nothing is written to BUF and STATUS is 0. -/
theorem invariantHoldsAtReset : Obligations.InvariantHoldsAtReset :=
  .of_not_valid rfl rfl nofun

/-- Settles O21: of all that a step can do, only reset and the write of CMD touch STATUS and the checksums. -/
theorem statusAndChecksumsChangeOnlyByCommandsOrReset : Obligations.StatusAndChecksumsChangeOnlyByCommandsOrReset := by
  intro s t h hchange
  rcases step_cases h with rfl | ⟨hreset, -⟩ | ⟨rest, x, rfl⟩ | ⟨rest, m, rfl, -⟩ | ⟨rest, r, v, u, hin, hu, rfl⟩
  · simp at hchange
  · exact .inl hreset
  · simp at hchange
  · simp at hchange
  · by_cases hr : r = .cmd
    · subst hr
      exact .inr ⟨v, hin⟩
    · obtain ⟨-, herr, hvalid, hcrc, hrx⟩ := writeReg_keeps_status hr hu
      simp [herr, hvalid, hcrc, hrx] at hchange

/-- Settles O22: the code alone, or VALID alone, since VALID stands only beside NONE. -/
theorem statusReadsOneOfSixWords : Obligations.StatusReadsOneOfSixWords := by
  intro s rest hs
  refine ⟨s.statusWord, ?_, step_facing_readReg s rest (r := .status) rfl⟩
  unfold State.statusWord
  cases hv : s.valid with
  | true => rw [hs.valid_err hv]; decide
  | false => cases s.err <;> decide

/-! ## The lock, the role and the keys -/

/-- CTRL and the keys are the same in both states. -/
structure SameKeys (s t : State) : Prop where
  role : t.role = s.role
  klock : t.klock = s.klock
  keyC : t.keyC = s.keyC
  keyV : t.keyV = s.keyV

/-- No command writes CTRL or a key (R33). -/
theorem exec_sameKeys {i : Instr} {s t : State} (h : exec i s = .next t) : SameKeys s t := by
  obtain ⟨u, e, v, hexec, hu⟩ := exec_cases i s
  obtain rfl : u.setStatus e v = t := by simpa [hexec] using h
  rcases hu with ⟨rfl, -⟩ | ⟨c, rfl, -⟩ | ⟨b, rfl, -⟩ | ⟨f, -, rfl, -⟩ | ⟨pt, rfl, -⟩ | ⟨pt, rfl, -⟩ <;>
    constructor <;> simp [received]

/-- No write to CMD writes CTRL or a key, whatever the word decodes to. -/
theorem perform_sameKeys {c : Decoded} {s t : State} (h : perform c s = .next t) : SameKeys s t := by
  cases c with
  | command i => exact exec_sameKeys h
  | illegal why =>
    cases h
    exact ⟨rfl, rfl, rfl, rfl⟩

/-- A register write leaves CTRL and the keys, but for CTRL's own write and, while unlocked, a key's own write (R18, R25). -/
theorem writeReg_sameKeys_or {r : Reg} {w : Word} {s t : State} (h : writeReg r w s = .next t) :
    SameKeys s t ∨
    (r = .ctrl ∧ t = s.writeCtrl w) ∨
    (∃ i k, r = .keyC i ∧ s.klock = false ∧ t = { s with keyC := k }) ∨
    ∃ i k, r = .keyV i ∧ s.klock = false ∧ t = { s with keyV := k } := by
  cases r
  case cmd => exact .inl (perform_sameKeys h)
  case ctrl => cases h; exact .inr (.inl ⟨rfl, rfl⟩)
  case keyC i =>
    by_cases hlock : s.klock = true
    · simp only [writeReg, if_pos hlock] at h
      cases h
      exact .inl ⟨rfl, rfl, rfl, rfl⟩
    · simp only [writeReg, if_neg hlock] at h
      cases h
      exact .inr (.inr (.inl ⟨i, _, rfl, Bool.eq_false_of_not_eq_true hlock, rfl⟩))
  case keyV i =>
    by_cases hlock : s.klock = true
    · simp only [writeReg, if_pos hlock] at h
      cases h
      exact .inl ⟨rfl, rfl, rfl, rfl⟩
    · simp only [writeReg, if_neg hlock] at h
      cases h
      exact .inr (.inr (.inr ⟨i, _, rfl, Bool.eq_false_of_not_eq_true hlock, rfl⟩))
  all_goals cases h; exact .inl ⟨rfl, rfl, rfl, rfl⟩

/-- A step other than reset leaves CTRL and the keys, but for CTRL's own write and, while unlocked, a key's own write. -/
theorem step_sameKeys_or {s t : State} (h : step s = .next t) (hreset : s.pending.head? ≠ some .reset) :
    SameKeys s t ∨
    (∃ w, s.pending.head? = some (.access (.write32 0x000#9 w)) ∧ t.role = (s.writeCtrl w).role ∧
      t.klock = (s.writeCtrl w).klock ∧ t.keyC = s.keyC ∧ t.keyV = s.keyV) ∨
    (∃ i w, i < 4 ∧ s.pending.head? = some (.access (.write32 (BitVec.ofNat 9 (0x020 + 4 * i)) w)) ∧ s.klock = false ∧
      t.role = s.role ∧ t.klock = s.klock ∧ t.keyV = s.keyV) ∨
    ∃ i w, i < 4 ∧ s.pending.head? = some (.access (.write32 (BitVec.ofNat 9 (0x030 + 4 * i)) w)) ∧ s.klock = false ∧
      t.role = s.role ∧ t.klock = s.klock ∧ t.keyC = s.keyC := by
  rcases step_cases h with rfl | ⟨hin, -⟩ | ⟨rest, x, rfl⟩ | ⟨rest, m, rfl, -⟩ | ⟨rest, r, v, u, hin, hu, rfl⟩
  · exact .inl ⟨rfl, rfl, rfl, rfl⟩
  · exact absurd hin hreset
  · exact .inl ⟨rfl, rfl, rfl, rfl⟩
  · exact .inl ⟨rfl, rfl, rfl, rfl⟩
  · rcases writeReg_sameKeys_or hu with ⟨hr, hl, hc, hv⟩ | ⟨rfl, rfl⟩ | ⟨i, k, rfl, hlock, rfl⟩ | ⟨i, k, rfl, hlock, rfl⟩
    · exact .inl ⟨hr, hl, hc, hv⟩
    · exact .inr (.inl ⟨v, hin, rfl, rfl, rfl, rfl⟩)
    · exact .inr (.inr (.inl ⟨i.toNat, v, i.isLt, hin, hlock, rfl, rfl, rfl⟩))
    · exact .inr (.inr (.inr ⟨i.toNat, v, i.isLt, hin, hlock, rfl, rfl, rfl⟩))

/-- A write of CTRL that changes ROLE finds the lock open, and takes the role from bit 0 (R18). -/
theorem State.writeCtrl_role_of_ne {s : State} {w : Word} (h : (s.writeCtrl w).role ≠ s.role) :
    s.klock = false ∧ ((s.writeCtrl w).role = .vehicle ↔ w.getLsbD 0 = true) := by
  unfold State.writeCtrl at h ⊢
  rw [Role.ofBit_extractLsb'_zero] at h ⊢
  cases hlock : s.klock
  · simp
  · simp [hlock] at h

/-- A write of CTRL that changes KLOCK sets it, by bit 1 (R18). -/
theorem State.writeCtrl_klock_of_ne {s : State} {w : Word} (h : (s.writeCtrl w).klock ≠ s.klock) :
    (s.writeCtrl w).klock = true ∧ w.getLsbD 1 = true := by
  have hkl : (s.writeCtrl w).klock = (s.klock || w.getLsbD 1) := rfl
  rw [hkl] at h ⊢
  cases hw : w.getLsbD 1
  · simp only [hw, Bool.or_false, ne_eq, not_true_eq_false] at h
  · exact ⟨Bool.or_true _, rfl⟩

/-- Settles O19: each of the three writes that touch CTRL or a key changes its own register only. -/
theorem keysRoleAndLockChangeOnlyByHostWritesOrReset : Obligations.KeysRoleAndLockChangeOnlyByHostWritesOrReset := by
  intro s t h hreset
  rcases step_sameKeys_or h hreset with ⟨hr, hl, hc, hv⟩ | ⟨w, hin, hr, hl, hc, hv⟩ | ⟨i, w, hi, hin, hlock, hr, hl, hv⟩ |
    ⟨i, w, hi, hin, hlock, hr, hl, hc⟩
  · exact ⟨absurd hr, absurd hl, absurd hc, absurd hv⟩
  · refine ⟨fun hne => ?_, fun hne => ?_, absurd hc, absurd hv⟩
    · rw [hr] at hne ⊢
      obtain ⟨hlock, hbit⟩ := State.writeCtrl_role_of_ne hne
      exact ⟨hlock, w, hin, hbit⟩
    · rw [hl] at hne ⊢
      obtain ⟨hset, hbit⟩ := State.writeCtrl_klock_of_ne hne
      exact ⟨hset, w, hin, hbit⟩
  · exact ⟨absurd hr, absurd hl, fun _ => ⟨hlock, i, w, hi, hin⟩, absurd hv⟩
  · exact ⟨absurd hr, absurd hl, absurd hc, fun _ => ⟨hlock, i, w, hi, hin⟩⟩

/-- A step of a locked machine other than reset leaves CTRL and the keys. -/
theorem step_sameKeys_of_locked {s t : State} (h : step s = .next t) (hlock : s.klock = true)
    (hreset : s.pending.head? ≠ some .reset) : SameKeys s t := by
  obtain ⟨hrole, hklock, hkeyC, hkeyV⟩ := keysRoleAndLockChangeOnlyByHostWritesOrReset s t h hreset
  have hopen : s.klock ≠ false := by simp [hlock]
  refine ⟨by_contra fun hne => hopen (hrole hne).1, by_contra fun hne => ?_, by_contra fun hne => hopen (hkeyC hne).1,
    by_contra fun hne => hopen (hkeyV hne).1⟩
  exact hne ((hklock hne).1.trans hlock.symm)

end Sys2Proof.Machine
end

section
/-! SUPPORT. Steps and runs: the inputs to come and the answers given, runs as chains of steps, the same access twice. -/

namespace Sys2Proof.Machine

/-! ## The inputs to come and the answers given -/

/-- What `f` does to a state does not depend on the inputs to come and the answers given, and it keeps both. -/
def IgnoresPorts (f : State → Host.Outcome State Fault Refusal) : Prop :=
  ∀ s : State, ∃ t : State, ∀ p x, f (s.withPorts p x) = .next (t.withPorts p x)

theorem State.withPorts_keyOf (s : State) (p : List Input) (x : List Response) (k : Role) :
    (s.withPorts p x).keyOf k = s.keyOf k := by
  cases k <;> rfl

theorem State.withPorts_outKey (s : State) (p : List Input) (x : List Response) : (s.withPorts p x).outKey = s.outKey :=
  s.withPorts_keyOf p x _

theorem State.withPorts_inKey (s : State) (p : List Input) (x : List Response) : (s.withPorts p x).inKey = s.inKey :=
  s.withPorts_keyOf p x _

theorem State.withPorts_byte (s : State) (p : List Input) (x : List Response) : (s.withPorts p x).byte = s.byte := rfl

/-- The length check and the ciphering of ENCBUF and DECBUF look at LEN and BUF alone. -/
theorem cryptBufBy_ignoresPorts (f : Block → Block) : IgnoresPorts (cryptBufBy f) := fun s => by
  by_cases h : badCryptLength s.len.toNat = true
  · exact ⟨s.raise .preconditionViolation, fun p x => if_pos h⟩
  · exact ⟨(s.setBuf (Memory.crypt s.resets f s.buf s.len.toNat)).complete, fun p x => if_neg h⟩

/-- SEND's frame is made of the key, the role and BUF. -/
theorem sentFrame_withPorts (pt : PacketType) (s : State) (p : List Input) (x : List Response) :
    sentFrame pt (s.withPorts p x) = sentFrame pt s := by
  unfold sentFrame
  rw [State.withPorts_outKey]
  rfl

theorem sentState_withPorts (pt : PacketType) (s : State) (p : List Input) (x : List Response) :
    sentState pt (s.withPorts p x) = (sentState pt s).withPorts p x := by
  simp only [sentState, sentFrame_withPorts, State.withPorts_byte]
  simp only [State.withPorts]

/-- What RECV leaves before its comparison is made of the key, the role and BUF. -/
theorem received_withPorts (pt : PacketType) (s : State) (p : List Input) (x : List Response) :
    received pt (s.withPorts p x) = (received pt s).withPorts p x := by
  unfold received
  rw [State.withPorts_inKey]
  rfl

/-- No command reads the inputs to come or the answers given. -/
theorem exec_ignoresPorts (i : Instr) : IgnoresPorts (exec i) := fun s => by
  cases i with
  | clr => exact ⟨s.complete, fun p x => rfl⟩
  | crc =>
    by_cases h : s.len.toNat ≤ 256
    · exact ⟨(s.setCrc (crc16 ((List.range s.len.toNat).map s.byte))).setStatus .none false, fun p x => exec_crc_of_le h⟩
    · exact ⟨s.raise .preconditionViolation, fun p x => exec_crc_of_lt (Nat.lt_of_not_le h)⟩
  | encb k =>
    obtain ⟨r, hr⟩ : ∃ r, encryptBlock (s.keyOf k) s.vBlock = r := ⟨_, rfl⟩
    refine ⟨{ s with v0 := r.v0, v1 := r.v1, err := .none, valid := false }, fun p x => exec_encb_of_eq ?_⟩
    rw [State.withPorts_keyOf]
    exact hr
  | decb k =>
    obtain ⟨r, hr⟩ : ∃ r, decryptBlock (s.keyOf k) s.vBlock = r := ⟨_, rfl⟩
    refine ⟨{ s with v0 := r.v0, v1 := r.v1, err := .none, valid := false }, fun p x => exec_decb_of_eq ?_⟩
    rw [State.withPorts_keyOf]
    exact hr
  | encbuf k =>
    obtain ⟨t, ht⟩ := cryptBufBy_ignoresPorts (encryptBlock (s.keyOf k)) s
    exact ⟨t, fun p x => by rw [exec_encbuf, State.withPorts_keyOf, ht]⟩
  | decbuf k =>
    obtain ⟨t, ht⟩ := cryptBufBy_ignoresPorts (decryptBlock (s.keyOf k)) s
    exact ⟨t, fun p x => by rw [exec_decbuf, State.withPorts_keyOf, ht]⟩
  | send pt => exact ⟨sentState pt s, fun p x => by rw [exec_send_eq_sentState, sentState_withPorts]⟩
  | recv pt =>
    by_cases hlen : s.len.toNat = plen pt
    · refine ⟨(received pt s).setStatus (recvError pt s) ((received pt s).crc == (received pt s).rxcrc), fun p x => ?_⟩
      rw [exec_recv_of_len_eq (s := s.withPorts p x) hlen, recvError, received_withPorts]
      rfl
    · exact ⟨s.raise .frameLengthMismatch, fun p x => exec_recv_of_len_ne hlen⟩

/-- No register write reads the inputs to come or the answers given. -/
theorem writeReg_ignoresPorts (r : Reg) (w : Word) : IgnoresPorts (writeReg r w) := fun s => by
  cases r
  case cmd =>
    simp only [writeReg]
    cases decode w with
    | command i => exact exec_ignoresPorts i s
    | illegal why => exact ⟨s.raise .illegalCommand, fun p x => rfl⟩
  case ctrl => exact ⟨s.writeCtrl w, fun p x => rfl⟩
  case len => exact ⟨s.setLen (w.extractLsb' 0 16), fun p x => rfl⟩
  case v0 => exact ⟨{ s with v0 := w }, fun p x => rfl⟩
  case v1 => exact ⟨{ s with v1 := w }, fun p x => rfl⟩
  case keyC i =>
    exact ⟨{ s with keyC := s.keyC.setWord i (if s.klock = true then s.keyC.word i else w) }, fun p x => writeReg_keyC i w _⟩
  case keyV i =>
    exact ⟨{ s with keyV := s.keyV.setWord i (if s.klock = true then s.keyV.word i else w) }, fun p x => writeReg_keyV i w _⟩
  all_goals exact ⟨s, fun p x => rfl⟩

/-- An access does the same whatever inputs come later and whatever answers came before, and adds one answer (R46, R59). -/
theorem performAccess_withPorts (a : Access) (s : State) : ∃ (t : State) (y : Response), ∀ p x,
    performAccess a (s.withPorts p x) = .next (t.withPorts p (y :: x)) := by
  rcases performAccess_cases a with ⟨f, hf, ha⟩ | ⟨g, -, ha⟩ | ⟨r, v, -, ha⟩
  · exact ⟨s, f s, fun p x => by rw [ha, hf]; rfl⟩
  · exact ⟨s.setBuf (g s.buf), .done, fun p x => ha _⟩
  · obtain ⟨t, ht⟩ := writeReg_ignoresPorts r v s
    exact ⟨t, .done, fun p x => by rw [ha, ht]; rfl⟩

/-- An input does the same whatever inputs come later and whatever answers came before; a host access adds one answer and reset
none (R46, R59, R114). -/
theorem performInput_withPorts (i : Input) (s : State) : ∃ (t : State) (new : List Response),
    new.length = accessCount [i] ∧
      ∀ p x, performInput i (s.withPorts p x) = .next (t.withPorts p (new ++ x)) := by
  cases i with
  | access a =>
    obtain ⟨t, y, h⟩ := performAccess_withPorts a s
    exact ⟨t, [y], rfl, h⟩
  | reset => exact ⟨s.afterReset, [], rfl, fun p x => rfl⟩

/-- Settles O11: a step performs its input on the state without the inputs and answers. -/
theorem stepsDoNotSeeLaterInputsOrEarlierAnswers : Obligations.StepsDoNotSeeLaterInputsOrEarlierAnswers := by
  intro s i p q x y
  obtain ⟨t, new, -, h⟩ := performInput_withPorts i s
  exact ⟨t, new, (step_input rfl).trans (h p x), (step_input rfl).trans (h q y)⟩

/-! ## Runs -/

/-- A run of one more step begins with a step. -/
theorem runsTo_cons {n : Nat} {s t u : State} (h : step s = .next t) (hrun : runsTo n t u) : runsTo (n + 1) s u := by
  have hcore : Sys2Proof.core.step s = .next t := h
  unfold runsTo at hrun ⊢
  simp only [Host.Core.run, hcore]
  exact hrun

theorem runsTo_zero (s : State) : runsTo 0 s s := rfl

/-- Every step takes the next input and, for a host access, adds one answer (R46, R59). -/
theorem exists_step {s : State} {i : Input} {rest : List Input} (h : s.pending = i :: rest) : ∃ t, step s = .next t ∧
    t.pending = rest ∧ t.responses.length = s.responses.length + accessCount [i] := by
  obtain ⟨t, new, hlen, ht⟩ := performInput_withPorts i s
  refine ⟨t.withPorts rest (new ++ s.responses), (step_input h).trans (ht rest s.responses), rfl, ?_⟩
  rw [State.withPorts, List.length_append, hlen, Nat.add_comm]

/-- Settles O12: by induction on the inputs, one step for each. -/
theorem everyListingIsPerformedToItsEnd : Obligations.EveryListingIsPerformedToItsEnd := by
  intro s
  generalize hp : s.pending = inputs
  induction inputs generalizing s with
  | nil => exact ⟨s, runsTo_zero s, hp, rfl⟩
  | cons i rest ih =>
    obtain ⟨t, hstep, htp, htr⟩ := exists_step hp
    obtain ⟨u, hrun, hup, hur⟩ := ih t htp
    refine ⟨u, runsTo_cons hstep hrun, hup, ?_⟩
    have hcount : accessCount (i :: rest) = accessCount [i] + accessCount rest := List.countP_append (l₁ := [i])
    omega

/-- Settles O18: by induction on the steps, each of which leaves CTRL and the keys of a locked machine and brings no reset. -/
theorem lockedKeysAndRoleStayUntilReset : Obligations.LockedKeysAndRoleStayUntilReset := by
  intro n
  induction n with
  | zero => exact fun s hlock _ => ⟨s, runsTo_zero s, hlock, rfl, rfl, rfl⟩
  | succ n ih =>
    intro s hlock hreset
    obtain ⟨t, hstep, hsub⟩ : ∃ t, step s = .next t ∧ t.pending ⊆ s.pending := by
      cases hp : s.pending with
      | nil => exact ⟨s, step_idle hp, by simp [hp]⟩
      | cons i rest =>
        obtain ⟨t, hstep, htp, -⟩ := exists_step hp
        exact ⟨t, hstep, htp ▸ List.subset_cons_self i rest⟩
    obtain ⟨hrole, hklock, hkeyC, hkeyV⟩ :=
      step_sameKeys_of_locked hstep hlock fun hhead => hreset (List.mem_of_head? hhead)
    obtain ⟨u, hrun, hul, hur, huc, huv⟩ := ih t (hklock.trans hlock) fun hmem => hreset (hsub hmem)
    exact ⟨u, runsTo_cons hstep hrun, hul, hur.trans hrole, huc.trans hkeyC, huv.trans hkeyV⟩

/-! ## The same access twice -/

/-- Writing the same CTRL word again changes nothing: a lock it set then holds the role it set (R18). -/
theorem State.writeCtrl_writeCtrl (s : State) (w : Word) : (s.writeCtrl w).writeCtrl w = s.writeCtrl w := by
  unfold State.writeCtrl
  cases s.klock <;> simp

theorem Key.setWord_setWord (k : Key) (i : BitVec 2) (w : Word) : (k.setWord i w).setWord i w = k.setWord i w := by
  unfold Key.setWord
  split
  · rfl
  split
  · rfl
  split <;> rfl

/-- A register write other than to CMD, performed again on what it left, changes nothing, whatever is pending and answered by
then (R45). -/
theorem writeReg_again {r : Reg} (hr : r ≠ .cmd) {w : Word} {s t : State} (h : writeReg r w s = .next t) (p : List Input)
    (x : List Response) : writeReg r w (t.withPorts p x) = .next (t.withPorts p x) := by
  cases r
  case cmd => exact absurd rfl hr
  case ctrl =>
    cases h
    exact congrArg _ ((s.withPorts p x).writeCtrl_writeCtrl w)
  case keyC i =>
    rw [writeReg_keyC] at h ⊢
    cases h
    cases hlock : s.klock <;> simp [State.withPorts, Key.setWord_setWord, Key.setWord_word]
  case keyV i =>
    rw [writeReg_keyV] at h ⊢
    cases h
    cases hlock : s.klock <;> simp [State.withPorts, Key.setWord_setWord, Key.setWord_word]
  all_goals cases h; rfl

/-- An access other than to CMD, performed again on what it left, changes the answers only, whatever is pending by then (R45). -/
theorem performAccess_again {a : Access} (ha : accessOffset a ≠ cmdOffset) (s : State) (p : List Input) : ∃ t u,
    performAccess a s = .next t ∧ t.pending = s.pending ∧ performAccess a (t.setPending p) = .next u ∧ u.bare = t.bare := by
  rcases performAccess_cases a with ⟨f, -, hf⟩ | ⟨g, hg, hf⟩ | ⟨r, v, rfl, hf⟩
  · exact ⟨_, _, hf s, rfl, hf _, rfl⟩
  · refine ⟨_, _, hf s, rfl, hf _, ?_⟩
    rw [State.setPending_buf, State.respond_buf, State.setBuf_buf, hg.again]
    rfl
  · have hr : r ≠ .cmd := fun hcmd => ha (congrArg regOffset hcmd)
    obtain ⟨t, ht, hp, -⟩ := writeReg_keeps_pending_responses r v s
    have hagain := writeReg_again hr ht p (.done :: t.responses)
    exact ⟨t.respond .done, (t.withPorts p (.done :: t.responses)).respond .done, by rw [hf, ht, answer], hp,
      (hf _).trans (congrArg (answer .done) hagain), rfl⟩

/-- Settles O10: a read only answers, and an access other than to CMD finds on its second time what it left on its first. -/
theorem readsHaveNoSideEffectAndWritesAreIdempotent : Obligations.ReadsHaveNoSideEffectAndWritesAreIdempotent := by
  refine ⟨fun s w off rest => ⟨hostRead w off (s.setPending rest), step_facing_access s _ rest⟩, fun s a rest ha => ?_⟩
  obtain ⟨t, u, ht, hp, hu, hbare⟩ := performAccess_again ha (s.setPending (.access a :: rest)) rest
  exact ⟨t, u, (step_facing_access s a _).trans ht, (step_input hp).trans hu, hbare⟩

/-! ## Commands and reset as steps -/

/-- Settles O5: CMD's write performs the decoded command, which keeps the inputs to come. -/
theorem stepRunsTheDecodedCommand : Obligations.StepRunsTheDecodedCommand := by
  intro s w i rest hw
  obtain ⟨t, hexec, hpending, -⟩ := exec_keeps_pending_responses i (s.setPending rest)
  refine ⟨t, hexec, ?_⟩
  have hanswered : t.respond .done = t.answered .done rest := by
    rw [State.answered, ← show t.pending = rest from hpending]
    rfl
  calc step (s.facing (cmdWrite w) rest)
    _ = answer .done (perform (decode w) (s.setPending rest)) := step_facing_cmdWrite s w rest
    _ = .next (t.answered .done rest) := by rw [hw, perform, hexec, answer, hanswered]

/-- Settles O14: no byte of BUF is written. -/
theorem resetStateHasTheResetValues : Obligations.ResetStateHasTheResetValues :=
  ⟨rfl, rfl, rfl, rfl, rfl, rfl, rfl, rfl, rfl, rfl, rfl, fun _ => rfl⟩

/-- Settles O15: the step on the reset input is `State.afterReset`. -/
theorem resetInputGivesTheResetValues : Obligations.ResetInputGivesTheResetValues := by
  intro s rest
  refine ⟨(s.setPending rest).afterReset, step_input (s := s.facing .reset rest) rfl, ?_⟩
  exact ⟨rfl, rfl, rfl, rfl, rfl, rfl, rfl, rfl, rfl, rfl, rfl, rfl, fun _ => rfl, rfl, rfl⟩

end Sys2Proof.Machine
end

section
/-! SUPPORT. The host's side: its initialisation of the block (R58, R117), and bus addresses (R35, R36). -/

namespace Sys2Proof.Machine

/-! ## The host's initialisation -/

theorem State.facing_self {s : State} {i : Input} {rest : List Input} (h : s.pending = i :: rest) : s.facing i rest = s := by
  rw [State.facing, ← h]

section Initialisation

variable {s u : State} {n : Nat} {off : Offset} {w : Word} {rest : List Input} {i : BitVec 2}

/-- A run that begins with a write of a word of KEYC while unlocked (R25). -/
theorem runsTo_writeKeyC (hp : s.pending = .access (.write32 off w) :: rest) (hlock : s.klock = false)
    (htarget : target .w32 off = some (.reg (.keyC i)))
    (hrun : runsTo n ({ s with keyC := s.keyC.setWord i w }.answered .done rest) u) : runsTo (n + 1) s u := by
  have hstep := step_facing_writeKeyC s rest w htarget
  rw [State.facing_self hp, if_neg (by simp [hlock])] at hstep
  exact runsTo_cons hstep hrun

/-- A run that begins with a write of a word of KEYV while unlocked (R25). -/
theorem runsTo_writeKeyV (hp : s.pending = .access (.write32 off w) :: rest) (hlock : s.klock = false)
    (htarget : target .w32 off = some (.reg (.keyV i)))
    (hrun : runsTo n ({ s with keyV := s.keyV.setWord i w }.answered .done rest) u) : runsTo (n + 1) s u := by
  have hstep := step_facing_writeKeyV s rest w htarget
  rw [State.facing_self hp, if_neg (by simp [hlock])] at hstep
  exact runsTo_cons hstep hrun

end Initialisation

/-- Writing its four words makes a key (R25, R58). -/
theorem Key.setWord_all (k k' : Key) :
    (((k.setWord 0#2 k'.k0).setWord 1#2 k'.k1).setWord 2#2 k'.k2).setWord 3#2 k'.k3 = k' := rfl

/-- The one step of `lock` on an unlocked block (R18, R58). -/
theorem runsTo_lock {s : State} {r : Role} {rest : List Input} (hp : s.pending = listing [.lock r] ++ rest)
    (hlock : s.klock = false) : runsTo 1 s ({ s with role := r, klock := true }.answered .done rest) := by
  have hstep := step_facing_writeCtrl s rest ((1#1 ++ r.bit).setWidth 32)
  have hp' : s.pending = .access (.write32 0x000#9 ((1#1 ++ r.bit).setWidth 32)) :: rest := hp
  rw [State.facing_self hp', if_neg (by simp [hlock])] at hstep
  refine runsTo_cons hstep ?_
  cases r <;> rfl

/-- Settles O20: nine register writes, a step each; the four words of each key make the key. -/
theorem initialisationListingSetsKeysRoleAndLock : Obligations.InitialisationListingSetsKeysRoleAndLock := by
  intro s r kc kv rest hlock
  refine runsTo_writeKeyC (i := 0#2) rfl hlock rfl ?_
  refine runsTo_writeKeyC (i := 1#2) rfl (by simp only [State.answered, hlock]) rfl ?_
  refine runsTo_writeKeyC (i := 2#2) rfl (by simp only [State.answered, hlock]) rfl ?_
  refine runsTo_writeKeyC (i := 3#2) rfl (by simp only [State.answered, hlock]) rfl ?_
  refine runsTo_writeKeyV (i := 0#2) rfl (by simp only [State.answered, hlock]) rfl ?_
  refine runsTo_writeKeyV (i := 1#2) rfl (by simp only [State.answered, hlock]) rfl ?_
  refine runsTo_writeKeyV (i := 2#2) rfl (by simp only [State.answered, hlock]) rfl ?_
  refine runsTo_writeKeyV (i := 3#2) rfl (by simp only [State.answered, hlock]) rfl ?_
  have hlast := runsTo_lock (r := r) (rest := rest) (s := {
    s with keyC := kc, keyV := kv, pending := listing [.lock r] ++ rest,
           responses := List.replicate 8 .done ++ s.responses }) rfl hlock
  simp only [State.answered, Key.setWord_all]
  exact hlast

/-! ## Bus addresses -/

/-- Settles O13: BASE plus an offset lies in the window and determines the offset, whatever number BASE is. -/
theorem busAddressesNameTheirOffset : Obligations.BusAddressesNameTheirOffset := by
  intro a off
  have hoff : off.toNat < 512 := off.isLt
  simp only [windowOffset, busAddress, show Config.windowBytes = 512 from rfl]
  generalize Config.base = base
  constructor
  · intro h
    split at h
    next hin =>
      have hnat : (BitVec.ofNat 9 (a - base)).toNat = off.toNat := by rw [Option.some.inj h]
      rw [BitVec.toNat_ofNat] at hnat
      omega
    next => cases h
  · rintro rfl
    rw [if_pos ⟨by omega, by omega⟩, Nat.add_sub_cancel_left, BitVec.ofNat_toNat, BitVec.setWidth_eq]

end Sys2Proof.Machine
end
